-- ==== Sys2Proof/Word.lean ====
section
/-! DEFINITION. The word types of the B64 codec block: the widths of 00_scope.md R7
(`SYM_W` = 8, `VAL_W` = 6, `CMD_W` = 64, `RSP_W` = 64, `LEN_W` = 32, `RES_W` = 48). Bits are
numbered from 0 at the least significant bit and every value is unsigned (R8). -/

namespace Sys2Proof

/-- One byte of a message, `SYM_W` bits (R7). -/
abbrev Byte := BitVec 8

/-- One symbol of a text, `SYM_W` bits (R7). -/
abbrev Symbol := BitVec 8

/-- A symbol value 0..63, `VAL_W` bits (R7). -/
abbrev Sextet := BitVec 6

/-- A command word, `CMD_W` bits (R7, R60). -/
abbrev CmdWord := BitVec 64

/-- A response word, `RSP_W` bits (R7, R71). -/
abbrev RspWord := BitVec 64

/-- The length operand of ELEN and DLEN, `LEN_W` bits (R7, R62). -/
abbrev LenWord := BitVec 32

/-- The payload field of a response, `RES_W` bits (R7, R71). -/
abbrev Payload := BitVec 48

end Sys2Proof
end

