-- ==== Sys2Proof/Syntax.lean ====
section
/-! DEFINITION. The commands of the block: one constructor per row of spec/opcode_table.json
(30_encoding.md R65), with its operands as R70 assembles them. -/

namespace Sys2Proof

/-- The two alphabets in scope (00_scope.md R4); `CODEC_CFG.ALPHA` selects one (10_state.md R24). -/
inductive Alphabet where
  /-- `A-Za-z0-9+/`, ALPHA = 0. -/
  | standard
  /-- `A-Za-z0-9-_`, ALPHA = 1. -/
  | urlSafe
deriving DecidableEq, Repr

/-- A command. The bytes of ENC and the symbols of DEC are listed by stream position, absent
positions included (their bits are ignored by the datapath, R69, but they are bits of the word). -/
inductive Instr where
  /-- ELEN: encoded length; `p` asks for the padded length (R62, R80). -/
  | elen (p : Bool) (len : LenWord)
  /-- DLEN: decoded length capacity (R62, R81). -/
  | dlen (len : LenWord)
  /-- ENC: encode one group; `n` is the field CNT, `a b c` the bytes at positions 0 1 2 (R63, R90). -/
  | enc (n : BitVec 3) (a b c : Byte)
  /-- DEC: decode one group; `n` is the field CNT, `s t u v` the symbols at positions 0 1 2 3
  (R63, R100). -/
  | dec (n : BitVec 3) (s t u v : Symbol)
  /-- CFG: set the codec instance (R64, R115). -/
  | cfg (padc : Symbol) (pen : Bool) (alpha : Alphabet)
  /-- RDCFG: read the codec instance (R61, R116). -/
  | rdcfg
deriving DecidableEq, Repr

/-- The mnemonic of a command, as R65 and spec/opcode_table.json spell it. -/
def Instr.mnemonic : Instr → String
  | .elen _ _ => "ELEN"
  | .dlen _ => "DLEN"
  | .enc _ _ _ _ => "ENC"
  | .dec _ _ _ _ _ => "DEC"
  | .cfg _ _ _ => "CFG"
  | .rdcfg => "RDCFG"

end Sys2Proof
end

