-- ==== Sys2Proof/Machine/Tables.lean ====
section
/-! DEFINITION. The alphabet tables: `ENC_LUT` (10_state.md R28, R29), written entry by entry from
the spec's table, and `DEC_LUT`, its reverse (R30). Both are read-only constants of the block
(R20). The codes are ASCII (log 9). -/

namespace Sys2Proof.Machine

/-- Values 0..25: `A`..`Z`. -/
def upperCodes : List Symbol :=
  [0x41#8, 0x42#8, 0x43#8, 0x44#8, 0x45#8, 0x46#8, 0x47#8, 0x48#8, 0x49#8, 0x4A#8, 0x4B#8, 0x4C#8, 0x4D#8,
   0x4E#8, 0x4F#8, 0x50#8, 0x51#8, 0x52#8, 0x53#8, 0x54#8, 0x55#8, 0x56#8, 0x57#8, 0x58#8, 0x59#8, 0x5A#8]

/-- Values 26..51: `a`..`z`. -/
def lowerCodes : List Symbol :=
  [0x61#8, 0x62#8, 0x63#8, 0x64#8, 0x65#8, 0x66#8, 0x67#8, 0x68#8, 0x69#8, 0x6A#8, 0x6B#8, 0x6C#8, 0x6D#8,
   0x6E#8, 0x6F#8, 0x70#8, 0x71#8, 0x72#8, 0x73#8, 0x74#8, 0x75#8, 0x76#8, 0x77#8, 0x78#8, 0x79#8, 0x7A#8]

/-- Values 52..61: `0`..`9`. -/
def digitCodes : List Symbol :=
  [0x30#8, 0x31#8, 0x32#8, 0x33#8, 0x34#8, 0x35#8, 0x36#8, 0x37#8, 0x38#8, 0x39#8]

/-- Values 62 and 63: `+` `/` (R28), or `-` `_` (R29). -/
def lastCodes : Alphabet → List Symbol
  | .standard => [0x2B#8, 0x2F#8]
  | .urlSafe => [0x2D#8, 0x5F#8]

/-- `ENC_LUT[al]` as a list of 64 entries, entry `v` at index `v` (R28, R29). -/
def encTable (al : Alphabet) : List Symbol :=
  upperCodes ++ (lowerCodes ++ (digitCodes ++ lastCodes al))

/-- The table has 64 entries, so a 6-bit value always indexes it (R31). -/
theorem encTable_length (al : Alphabet) : (encTable al).length = 64 := by cases al <;> rfl

/-- `ENC_LUT[al][v]` (R28, R29). -/
def encLut (al : Alphabet) (v : Sextet) : Symbol :=
  (encTable al)[v.toNat]'(by rw [encTable_length]; exact v.isLt)

/-- `DEC_LUT[al][x]` (R30): the value whose entry is `x`, `none` for the spec's INVALID. Written as
the linear search R30 allows; a reverse table gives the same (93_implementation_defined.md I13). -/
def decLut (al : Alphabet) (x : Symbol) : Option Sextet :=
  ((encTable al).findIdx? (· == x)).map (BitVec.ofNat 6)

end Sys2Proof.Machine
end

