-- ==== Sys2Proof/Machine/Flags.lean ====
section
/-! DEFINITION. The block has no status register (10_state.md R34). What is flag-like is here: the
status codes of a response (60_exceptions.md R132) and the presence flag and value of each
position of a group while a command executes (10_state.md R33). -/

namespace Sys2Proof.Machine

/-- The statuses a response can carry (R132); 0x2..0xF are never produced. -/
inductive Status where
  /-- "the command executed" -/
  | ok
  /-- "any command word that decodes to no command" -/
  | illegal
deriving DecidableEq, Repr

/-- The `ST` code of a status (R132). -/
def Status.code : Status → BitVec 4
  | .ok => 0x0#4
  | .illegal => 0x1#4

/-- R33: "a presence flag and a numeric value, rather than collapsing to a single nullable
value". -/
structure Lane (w : Nat) where
  present : Bool
  value : BitVec w
deriving DecidableEq, Repr

/-- R33, ENC: "position `i` (0..2) is present when `i < CNT` and its value is the byte there when
present and 0 when absent." -/
def encLane (n : BitVec 3) (i : Nat) (x : Byte) : Lane 8 :=
  if i < n.toNat then ⟨true, x⟩ else ⟨false, 0#8⟩

/-- R33 and 42_decode.md R101, DEC: "position `i` (0..3) is resolved when `i < CNT` and `DEC_LUT`
gives a value, and its numeric value is that value when resolved and 0 otherwise." -/
def decLane (al : Alphabet) (n : BitVec 3) (i : Nat) (x : Symbol) : Lane 6 :=
  if i < n.toNat then
    match decLut al x with
    | some v => ⟨true, v⟩
    | none => ⟨false, 0#6⟩
  else ⟨false, 0#6⟩

end Sys2Proof.Machine
end

