-- ==== Sys2Proof/WellFormed.lean ====
section
/-! DEFINITION. The checks a command's operands meet beyond their widths: the CNT ranges of
30_encoding.md R68. -/

namespace Sys2Proof

/-- R68: "For ENC, `CNT` must be 1, 2 or 3". -/
def encCountOk (n : BitVec 3) : Bool := decide (1 ≤ n.toNat) && decide (n.toNat ≤ 3)

/-- R68: "For DEC, `CNT` must be 1, 2, 3 or 4." -/
def decCountOk (n : BitVec 3) : Bool := decide (1 ≤ n.toNat) && decide (n.toNat ≤ 4)

/-- A command whose word is not ILLEGAL. -/
def Instr.wf : Instr → Bool
  | .elen _ _ => true
  | .dlen _ => true
  | .enc n _ _ _ => encCountOk n
  | .dec n _ _ _ _ => decCountOk n
  | .cfg _ _ _ => true
  | .rdcfg => true

end Sys2Proof
end

