-- ==== Sys2Proof/Decode.lean ====
section
/-! DEFINITION. Decoding a 64-bit command word (30_encoding.md R73: total, every word is one
command or ILLEGAL), then encoding (the formats of R61 to R64), then the opcode table of R65 as
data. A word is not a run of bytes in a memory: every transfer moves one whole 64-bit word
(20_memory.md R44), so the decoder takes the word. -/

namespace Sys2Proof

/-! ## Fields of a command word (R60 to R64, R70) -/

/-- `C[63:56]`, the opcode (R60). -/
def opcOf (C : CmdWord) : BitVec 8 := C.extractLsb' 56 8

/-- `C[50:48]`, the CNT field of format G (R63). -/
def cntOf (C : CmdWord) : BitVec 3 := C.extractLsb' 48 3

/-- `C[48]`, the P bit of format L (R62). -/
def padBitOf (C : CmdWord) : Bool := C.getLsbD 48

/-- `C[31:0]`, the LEN field of format L (R62). -/
def lenOf (C : CmdWord) : LenWord := C.extractLsb' 0 32

/-- `C[23-8i : 16-8i]`, the ENC byte at stream position `i` = 0, 1, 2 (R70). -/
def encByteOf (C : CmdWord) (i : Nat) : Byte := C.extractLsb' (16 - 8 * i) 8

/-- `C[31-8i : 24-8i]`, the DEC symbol at stream position `i` = 0..3 (R70). -/
def decSymbolOf (C : CmdWord) (i : Nat) : Symbol := C.extractLsb' (24 - 8 * i) 8

/-- `C[15:8]`, the PADC field of format C (R64). -/
def padcOf (C : CmdWord) : Symbol := C.extractLsb' 8 8

/-- `C[1]`, the PEN bit of format C (R64). -/
def penOf (C : CmdWord) : Bool := C.getLsbD 1

/-- The alphabet an ALPHA bit selects: 0 = standard, 1 = URL-safe (10_state.md R23). -/
def alphabetOfBit : Bool → Alphabet
  | false => .standard
  | true => .urlSafe

/-- The ALPHA bit of an alphabet (10_state.md R23). -/
def Alphabet.bit : Alphabet → Bool
  | .standard => false
  | .urlSafe => true

/-- `C[0]`, the ALPHA bit of format C (R64). -/
def alphaOf (C : CmdWord) : Alphabet := alphabetOfBit (C.getLsbD 0)

/-! ## Opcodes (R65) -/

/-- The opcode byte of a command (R65). -/
def Instr.opcode : Instr → BitVec 8
  | .elen _ _ => 0x01#8
  | .dlen _ => 0x02#8
  | .enc _ _ _ _ => 0x10#8
  | .dec _ _ _ _ _ => 0x20#8
  | .cfg _ _ _ => 0x30#8
  | .rdcfg => 0x31#8

/-! ## The decoder (R73) -/

/-- Why a word encodes no command: the three causes of 60_exceptions.md R130. The response does
not tell them apart (R133). -/
inductive IllegalCause where
  /-- An unassigned opcode (R67). -/
  | unassignedOpcode
  /-- An assigned opcode with a reserved bit set (R66). -/
  | reservedBitSet
  /-- ENC or DEC with CNT out of range (R68), every reserved bit being 0. -/
  | countOutOfRange
deriving DecidableEq, Repr

/-- Format L with ELEN's P bit: bits 55:49 and 47:32 must be 0 (R62, R73). -/
def decodeElen (C : CmdWord) : Except IllegalCause Instr :=
  if C.extractLsb' 49 7 = 0#7 ∧ C.extractLsb' 32 16 = 0#16 then
    .ok (.elen (padBitOf C) (lenOf C))
  else .error .reservedBitSet

/-- Format L for DLEN: bits 55:32 must be 0, bit 48 among them (R62, R73). -/
def decodeDlen (C : CmdWord) : Except IllegalCause Instr :=
  if C.extractLsb' 32 24 = 0#24 then .ok (.dlen (lenOf C)) else .error .reservedBitSet

/-- Format G for ENC: bits 55:51 and 47:24 must be 0 and CNT must be 1..3 (R63, R68, R73). -/
def decodeEnc (C : CmdWord) : Except IllegalCause Instr :=
  if C.extractLsb' 51 5 = 0#5 ∧ C.extractLsb' 24 24 = 0#24 then
    if encCountOk (cntOf C) then
      .ok (.enc (cntOf C) (encByteOf C 0) (encByteOf C 1) (encByteOf C 2))
    else .error .countOutOfRange
  else .error .reservedBitSet

/-- Format G for DEC: bits 55:51 and 47:32 must be 0 and CNT must be 1..4 (R63, R68, R73). -/
def decodeDec (C : CmdWord) : Except IllegalCause Instr :=
  if C.extractLsb' 51 5 = 0#5 ∧ C.extractLsb' 32 16 = 0#16 then
    if decCountOk (cntOf C) then
      .ok (.dec (cntOf C) (decSymbolOf C 0) (decSymbolOf C 1) (decSymbolOf C 2) (decSymbolOf C 3))
    else .error .countOutOfRange
  else .error .reservedBitSet

/-- Format C for CFG: bits 55:16 and 7:2 must be 0 (R64, R73). -/
def decodeCfg (C : CmdWord) : Except IllegalCause Instr :=
  if C.extractLsb' 16 40 = 0#40 ∧ C.extractLsb' 2 6 = 0#6 then
    .ok (.cfg (padcOf C) (penOf C) (alphaOf C))
  else .error .reservedBitSet

/-- Format N for RDCFG: bits 55:0 must be 0 (R61, R73). -/
def decodeRdcfg (C : CmdWord) : Except IllegalCause Instr :=
  if C.extractLsb' 0 56 = 0#56 then .ok .rdcfg else .error .reservedBitSet

/-- R73: the command a word encodes, or why it encodes none. -/
def decode (C : CmdWord) : Except IllegalCause Instr :=
  if opcOf C = 0x01#8 then decodeElen C
  else if opcOf C = 0x02#8 then decodeDlen C
  else if opcOf C = 0x10#8 then decodeEnc C
  else if opcOf C = 0x20#8 then decodeDec C
  else if opcOf C = 0x30#8 then decodeCfg C
  else if opcOf C = 0x31#8 then decodeRdcfg C
  else .error .unassignedOpcode

/-- The command word the host gives as `nbits` bits of `w`, numbered as spec/opcode_table.json
numbers them; there is one word, so bit `k` of `w` is bit `k` of the command word, and every bit
at or above `nbits` is 0. -/
def tableWord (nbits w : Nat) : CmdWord := BitVec.ofNat 64 (w % 2 ^ nbits)

/-- The command the decoder reads from a table word, none where the word is ILLEGAL. -/
def decodeTableWord (nbits w : Nat) : Option Instr := (decode (tableWord nbits w)).toOption

/-! ## The encoder (R61 to R64) -/

/-- The 16-bit image `PADC, 000000, PEN, ALPHA`: bits 15:0 of format C and the layout of
`CODEC_CFG` (R64; 10_state.md R23). -/
def cfgImage (padc : Symbol) (pen : Bool) (alpha : Alphabet) : BitVec 16 :=
  padc ++ 0#6 ++ BitVec.ofBool pen ++ BitVec.ofBool alpha.bit

/-- The word of a command: its opcode, its operands in their fields and 0 in every reserved bit. -/
def encode (i : Instr) : CmdWord :=
  match i with
  | .elen p len => i.opcode ++ 0#7 ++ BitVec.ofBool p ++ 0#16 ++ len
  | .dlen len => i.opcode ++ 0#24 ++ len
  | .enc n a b c => i.opcode ++ 0#5 ++ n ++ 0#24 ++ a ++ b ++ c
  | .dec n s t u v => i.opcode ++ 0#5 ++ n ++ 0#16 ++ s ++ t ++ u ++ v
  | .cfg padc pen alpha => i.opcode ++ 0#40 ++ cfgImage padc pen alpha
  | .rdcfg => i.opcode ++ 0#56

/-! ## The opcode table as data (R65) -/

/-- One row of R65's table of fixed bits. -/
structure OpcodeRow where
  mnemonic : String
  mask : CmdWord
  value : CmdWord
deriving DecidableEq, Repr

/-- R65: the mask and match of the six commands. -/
def opcodeTable : List OpcodeRow :=
  [ ⟨"ELEN", 0xFFFEFFFF00000000#64, 0x0100000000000000#64⟩,
    ⟨"DLEN", 0xFFFFFFFF00000000#64, 0x0200000000000000#64⟩,
    ⟨"ENC", 0xFFF8FFFFFF000000#64, 0x1000000000000000#64⟩,
    ⟨"DEC", 0xFFF8FFFF00000000#64, 0x2000000000000000#64⟩,
    ⟨"CFG", 0xFFFFFFFFFFFF00FC#64, 0x3000000000000000#64⟩,
    ⟨"RDCFG", 0xFFFFFFFFFFFFFFFF#64, 0x3100000000000000#64⟩ ]

/-- R65: "a word `C` has the fixed bits of a row when `C & mask = match`". -/
def OpcodeRow.fixedBitsOf (r : OpcodeRow) (C : CmdWord) : Bool := C &&& r.mask == r.value

/-- R65: "For ENC and DEC the word is a command only if in addition `CNT` is in the range of rule
R68"; other rows ask nothing more. -/
def OpcodeRow.countOk (r : OpcodeRow) (C : CmdWord) : Bool :=
  if r.mnemonic = "ENC" then encCountOk (cntOf C)
  else if r.mnemonic = "DEC" then decCountOk (cntOf C)
  else true

end Sys2Proof
end

