-- ==== Sys2Proof/Machine/Operands.lean ====
section
/-! DEFINITION. The byte order inside a field (20_memory.md R45) and the fields of `CODEC_CFG`
(10_state.md R23) and of a response word (30_encoding.md R71). -/

namespace Sys2Proof.Machine

/-! ## Packing bytes, most significant first (R10 `pack_K`, R45) -/

/-- R10: the byte `pack_K(l)` has at stream position `p`: "`l[p]` for `p < len(l)` and `0x00`
otherwise". -/
def packByte (l : List Byte) (p : Nat) : Byte := l.getD p 0x00#8

/-- `pack_3(l)`. -/
def pack3 (l : List Byte) : BitVec 24 := packByte l 0 ++ packByte l 1 ++ packByte l 2

/-- `pack_4(l)`. -/
def pack4 (l : List Byte) : BitVec 32 :=
  packByte l 0 ++ packByte l 1 ++ packByte l 2 ++ packByte l 3

/-- R45: the byte at stream position `p` of a field of `K` bytes held in the low bits of `x`:
bits `[8(K-1-p)+7 : 8(K-1-p)]`. -/
def fieldByte {w : Nat} (K p : Nat) (x : BitVec w) : Byte := x.extractLsb' (8 * (K - 1 - p)) 8

/-- The `K` bytes of a field, in stream order (R45). -/
def unpack {w : Nat} (K : Nat) (x : BitVec w) : List Byte :=
  (List.range K).map fun p => fieldByte K p x

/-! ## Fields of `CODEC_CFG` (10_state.md R23) -/

/-- The bits of `CODEC_CFG` that exist; bits 7:2 are hardwired 0 (R27). -/
def cfgMask : BitVec 16 := 0xFF03#16

/-- `ALPHA`, bit 0 (R24). -/
def cfgAlpha (g : BitVec 16) : Alphabet := alphabetOfBit (g.getLsbD 0)

/-- `PEN`, bit 1 (R25). -/
def cfgPen (g : BitVec 16) : Bool := g.getLsbD 1

/-- `PADC`, bits 15:8 (R26). -/
def cfgPadc (g : BitVec 16) : Symbol := g.extractLsb' 8 8

/-! ## Fields of a response word (30_encoding.md R71), as a host reads them -/

/-- `OPC`, bits 63:56. -/
def rspOpc (r : RspWord) : BitVec 8 := r.extractLsb' 56 8

/-- `ST`, bits 55:52. -/
def rspSt (r : RspWord) : BitVec 4 := r.extractLsb' 52 4

/-- Bit 51, "always 0". -/
def rspBit51 (r : RspWord) : Bool := r.getLsbD 51

/-- `CNT`, bits 50:48. -/
def rspCnt (r : RspWord) : BitVec 3 := r.extractLsb' 48 3

/-- `DATA`, bits 47:0. -/
def rspPayload (r : RspWord) : Payload := r.extractLsb' 0 48

end Sys2Proof.Machine
end

