-- ==== Sys2Proof/Config.lean ====
section
/-! DEFINITION. The OPEN implementation parameters of 00_scope.md R7 and 92_eei_decisions.md
("Open parameters"): `DEPTH` and `LAT`, each an integer >= 1 that nothing fixes. Each is one more
than an opaque constant, so that it is at least 1 and no proof can see its value (log 2). The
fixed parameters of R7 are the widths of Word.lean and the two constructors of `Alphabet`. -/

namespace Sys2Proof.Config

/-- `DEPTH` less one: any natural number. -/
opaque depthPred : Nat

/-- `LAT` less one: any natural number. -/
opaque latPred : Nat

/-- `DEPTH` (R7): "most commands accepted whose responses are not yet delivered", >= 1. -/
def depth : Nat := depthPred + 1

/-- `LAT` (R7): "least number of cycles from acceptance of a command to presentation of its
response", >= 1. -/
def lat : Nat := latPred + 1

end Sys2Proof.Config
end

