-- ==== Sys2Proof/Machine/State.lean ====
section
/-! DEFINITION. The state of the block and of its ports, as plain data, its reset value, and the
reasons a step may stop. INVENTORY.md's "State" lists every field. The alphabet tables are
read-only constants (10_state.md R20, R28 to R30) and stand in Machine/Tables.lean. -/

namespace Sys2Proof.Machine

/-- One entry of `RSPQ` (10_state.md R35). -/
structure Queued where
  /-- The 64-bit response word. -/
  word : RspWord
  /-- How many rising edges have passed since the edge that accepted its command: 0 right after
  that edge. Needed by R42's bound of `LAT` cycles. -/
  age : Nat
deriving DecidableEq, Repr

/-- One rising edge of `clk` (20_memory.md R41): the inputs sampled there and the block's two free
choices (R42, R54; 93_implementation_defined.md I6). -/
structure Edge where
  /-- `rst` (R150). -/
  rst : Bool
  /-- `cmd_valid`. -/
  cmdValid : Bool
  /-- `cmd_data`; of no account while `cmd_valid` = 0. -/
  cmdData : CmdWord
  /-- `rsp_ready`. -/
  rspReady : Bool
  /-- The block's free choice of `cmd_ready`, which holds where R54 leaves it free. -/
  readyChoice : Bool
  /-- The block's free choice to raise `rsp_valid`, which holds where R42 leaves it free. -/
  validChoice : Bool
deriving DecidableEq, Repr

/-- The state of the machine. -/
structure State where
  /-- `CODEC_CFG` (10_state.md R23). Read and written through `readCfg` and `writeCfg` alone. -/
  codecCfg : BitVec 16
  /-- `RSPQ`, head first (R35). -/
  rspq : List Queued
  /-- `rsp_valid` was 1 at the last edge and its response did not transfer: the block keeps it at
  1 (20_memory.md R43). -/
  rspRaised : Bool
  /-- The command the host offered at the last edge and that did not transfer: the host keeps it
  (R43). -/
  cmdOffer : Option CmdWord
  /-- The rising edges still to come, next first: what the outside world will do and the block's
  free choices there. The model's own field (log 1, log 3). -/
  edges : List Edge
  /-- The command words accepted in this session, in acceptance order (R50, R57). A record: no
  command reads it (10_state.md R22). -/
  accepted : List CmdWord
  /-- The response words delivered in this session, in order (R57). A record. -/
  delivered : List RspWord
deriving DecidableEq, Repr

/-- Nothing in the spec stops the block: its one exceptional event, ILLEGAL, is a response and
the block goes on (60_exceptions.md R130, R131). So there is no fault. -/
inductive Fault where
deriving DecidableEq, Repr

/-- The reasons a step is refused. -/
inductive Refusal where
  /-- Raised by an arm of `exec` for a command that has no meaning yet; no arm raises it. Safe. -/
  | notModelled (mnemonic : String)
  /-- Raised by the port at an edge where the host has dropped `cmd_valid` before its command
  transferred (R43; 93_implementation_defined.md I11: refuse). Safe: the spec gives such a session
  no meaning. -/
  | hostDroppedOffer
  /-- Raised by the port at an edge where the host has changed `cmd_data` before its command
  transferred (R43; I11: refuse). Safe, for the same reason. -/
  | hostChangedOffer
deriving DecidableEq, Repr

/-- The state right after a rising edge with `rst` = 1 (70_reset_and_hazards.md R151): CODEC_CFG
is 0x3D02, RSPQ is empty, no transfer is pending (R152) and a new session begins (R153). No edge
is listed: the host has not acted yet (log 1). -/
def State.reset : State where
  codecCfg := 0x3D02#16
  rspq := []
  rspRaised := false
  cmdOffer := none
  edges := []
  accepted := []
  delivered := []

end Sys2Proof.Machine
end

