-- ==== Sys2Proof/Machine/Ops.lean ====
section
/-! DEFINITION. The named operations every meaning is made of: reading and writing `CODEC_CFG`,
building a response word, `respond` and `raise Illegal` (00_scope.md R10). There is no register
file, no program counter and no memory to operate on (10_state.md R21, R22, R36), and no return
from an exception (60_exceptions.md R140). -/

namespace Sys2Proof.Machine

/-- `cfg`: the 16-bit image of `CODEC_CFG`; bits 7:2 read as 0 (10_state.md R27). -/
def readCfg (s : State) : BitVec 16 := s.codecCfg &&& cfgMask

/-- `cfg <- v`: all 16 bits at once (20_memory.md R47); bits 7:2 cannot be written (R27). -/
def writeCfg (v : BitVec 16) (s : State) : State := { s with codecCfg := v &&& cfgMask }

/-- A response word from its fields (30_encoding.md R71): `OPC`, `ST`, a 0 at bit 51, `CNT`,
`DATA`. -/
def mkResponse (opc : BitVec 8) (st : Status) (cnt : BitVec 3) (data : Payload) : RspWord :=
  opc ++ st.code ++ 0#1 ++ cnt ++ data

/-- `respond(R)`: append `R` to the response queue (10_state.md R35). -/
def respond (r : RspWord) (s : State) : State := { s with rspq := s.rspq ++ [⟨r, 0⟩] }

/-- The ILLEGAL response to a word with opcode byte `opc`: "`OPC` = `C[63:56]`, `ST` = 0x1, every
other bit 0" (60_exceptions.md R131). -/
def illegalResponse (opc : BitVec 8) : RspWord := mkResponse opc .illegal 0#3 0#48

/-- `raise Illegal(opc)`: the block's one exceptional event (R130, R131). It changes no state,
responds, and the block goes on; it saves nothing, masks nothing and redirects nothing (R139). -/
def raiseIllegal (opc : BitVec 8) (s : State) : Host.Outcome State Fault Refusal :=
  .next (respond (illegalResponse opc) s)

end Sys2Proof.Machine
end

