-- ==== Sys2Proof/Machine/Configuration.lean ====
section
/-! DEFINITION. The configuration commands CFG and RDCFG (43_config.md R115, R116). -/

namespace Sys2Proof.Machine

/-- CFG (R115): `cfg <- {padc, 0b000000, pen, alpha}`, then `respond({0x30, 0x0, 0b0, 0b000, 0})`. -/
def execCfg (padc : Symbol) (pen : Bool) (alpha : Alphabet) (s : State) :
    Host.Outcome State Fault Refusal :=
  .next (respond (mkResponse 0x30#8 .ok 0#3 0#48) (writeCfg (cfgImage padc pen alpha) s))

/-- RDCFG (R116): `respond({0x31, 0x0, 0b0, 0b000, zext_48(cfg)})`. -/
def execRdcfg (s : State) : Host.Outcome State Fault Refusal :=
  .next (respond (mkResponse 0x31#8 .ok 0#3 ((readCfg s).setWidth 48)) s)

end Sys2Proof.Machine
end

