-- ==== Sys2Proof/Machine/Decoder.lean ====
section
/-! DEFINITION. The decoder, command DEC (42_decode.md): look up (R101), drop (R102), regroup
(R103), emit (R105). It reads ALPHA alone of `CODEC_CFG` (10_state.md R32). -/

namespace Sys2Proof.Machine

/-- `byte1 = (a << 2) | (b >> 4)` (R103), on 8 bits (R104). -/
def decByte1 (a b : Sextet) : Byte := (a.setWidth 8 <<< 2) ||| (b.setWidth 8 >>> 4)

/-- `byte2 = ((b & 15) << 4) | (c >> 2)` (R103). -/
def decByte2 (b c : Sextet) : Byte := ((b.setWidth 8 &&& 15#8) <<< 4) ||| (c.setWidth 8 >>> 2)

/-- `byte3 = ((c & 3) << 6) | d` (R103). -/
def decByte3 (c d : Sextet) : Byte := ((c.setWidth 8 &&& 3#8) <<< 6) ||| d.setWidth 8

/-- R102 and R105 on the four positions' flags and values: no byte if the first or second is
unresolved; else byte1, then byte2 if the third resolved, then byte3 if the fourth resolved, an
unresolved value being 0. The two last conditions are independent (log 8). -/
def decEmit (r0 r1 r2 r3 : Lane 6) : List Byte :=
  if r0.present && r1.present then
    [decByte1 r0.value r1.value]
      ++ (if r2.present then [decByte2 r1.value r2.value] else [])
      ++ (if r3.present then [decByte3 r2.value r3.value] else [])
  else []

/-- R100: `out`, the bytes a group emits. -/
def decBytes (al : Alphabet) (n : BitVec 3) (s0 s1 s2 s3 : Symbol) : List Byte :=
  decEmit (decLane al n 0 s0) (decLane al n 1 s1) (decLane al n 2 s2) (decLane al n 3 s3)

/-- R100: `{0x20, 0x0, 0b0, len(out)[2:0], 0x0000, 0x00, pack_3(out)}`. -/
def decResponse (al : Alphabet) (n : BitVec 3) (s0 s1 s2 s3 : Symbol) : RspWord :=
  let out := decBytes al n s0 s1 s2 s3
  mkResponse 0x20#8 .ok (BitVec.ofNat 3 out.length) (0#16 ++ 0x00#8 ++ pack3 out)

/-- DEC (R100). -/
def execDec (n : BitVec 3) (s0 s1 s2 s3 : Symbol) (s : State) : Host.Outcome State Fault Refusal :=
  .next (respond (decResponse (cfgAlpha (readCfg s)) n s0 s1 s2 s3) s)

end Sys2Proof.Machine
end

