-- ==== Sys2Proof/Machine/Encoder.lean ====
section
/-! DEFINITION. The encoder, command ENC (41_encode.md): regroup (R91), look up (R93), pad (R94). -/

namespace Sys2Proof.Machine

/-- `G = {a, b, c}`, 24 bits, an absent byte being 0 (R90, R91). -/
def encGroup (n : BitVec 3) (a b c : Byte) : BitVec 24 :=
  (encLane n 0 a).value ++ (encLane n 1 b).value ++ (encLane n 2 c).value

/-- `v0 = G[23:18]; v1 = G[17:12]; v2 = G[11:6]; v3 = G[5:0]` (R90). -/
def encValues (g : BitVec 24) : List Sextet :=
  [g.extractLsb' 18 6, g.extractLsb' 12 6, g.extractLsb' 6 6, g.extractLsb' 0 6]

/-- The data symbols: `ENC_LUT[cfg.ALPHA][v_i]` for `i` = 0 .. `n` (R90, R93, R95). -/
def encDataSymbols (al : Alphabet) (n : BitVec 3) (a b c : Byte) : List Symbol :=
  ((encValues (encGroup n a b c)).take (n.toNat + 1)).map (encLut al)

/-- R90: `syms`, the data symbols and, when PEN = 1, PADC up to 4 symbols (R94). -/
def encSymbols (g : BitVec 16) (n : BitVec 3) (a b c : Byte) : List Symbol :=
  let data := encDataSymbols (cfgAlpha g) n a b c
  if cfgPen g then data ++ List.replicate (4 - (n.toNat + 1)) (cfgPadc g) else data

/-- R90: `{0x10, 0x0, 0b0, len(syms)[2:0], 0x0000, pack_4(syms)}`. -/
def encResponse (g : BitVec 16) (n : BitVec 3) (a b c : Byte) : RspWord :=
  let syms := encSymbols g n a b c
  mkResponse 0x10#8 .ok (BitVec.ofNat 3 syms.length) (0#16 ++ pack4 syms)

/-- ENC (R90). -/
def execEnc (n : BitVec 3) (a b c : Byte) (s : State) : Host.Outcome State Fault Refusal :=
  .next (respond (encResponse (readCfg s) n a b c) s)

end Sys2Proof.Machine
end

