-- ==== Sys2Proof/Machine/Length.lean ====
section
/-! DEFINITION. The size calculators ELEN and DLEN (40_length.md). Both read only their command
word. The arithmetic is on unsigned integers and never wraps (R84), so it is on Nat and narrowed
once, into the 48-bit result field. -/

namespace Sys2Proof.Machine

/-- `ceil(len * 4 / 3)`, "computed exactly: base = (4*len + 2) div 3" (R80). -/
def elenBase (len : Nat) : Nat := (4 * len + 2) / 3

/-- R80: "If padding is requested and the base length is not a multiple of 4, round up to the next
multiple of 4." -/
def elenResult (p : Bool) (len : Nat) : Nat :=
  if p = true ∧ elenBase len % 4 ≠ 0 then elenBase len + (4 - elenBase len % 4) else elenBase len

/-- `ceil(len * 3 / 4)`, "computed exactly: (3*len + 3) div 4" (R81). -/
def dlenMin (len : Nat) : Nat := (3 * len + 3) / 4

/-- R81: "if `minLength mod 3 != 0`, add `3 - (minLength mod 3)` to round up to the next multiple of
3; otherwise add 0." -/
def dlenResult (len : Nat) : Nat :=
  if dlenMin len % 3 ≠ 0 then dlenMin len + (3 - dlenMin len % 3) else dlenMin len

/-- ELEN (R80): `respond({0x01, 0x0, 0b0, 0b000, res[47:0]})`. -/
def execElen (p : Bool) (len : LenWord) (s : State) : Host.Outcome State Fault Refusal :=
  .next (respond (mkResponse 0x01#8 .ok 0#3 (BitVec.ofNat 48 (elenResult p len.toNat))) s)

/-- DLEN (R81): `respond({0x02, 0x0, 0b0, 0b000, res[47:0]})`. -/
def execDlen (len : LenWord) (s : State) : Host.Outcome State Fault Refusal :=
  .next (respond (mkResponse 0x02#8 .ok 0#3 (BitVec.ofNat 48 (dlenResult len.toNat))) s)

end Sys2Proof.Machine
end

