-- ==== Sys2Proof/Machine/Dispatch.lean ====
section
/-! DEFINITION. One arm per command (30_encoding.md R65), each one call of its meaning. -/

namespace Sys2Proof.Machine

def exec (i : Instr) (s : State) : Host.Outcome State Fault Refusal :=
  match i with
  | .elen p len => Sys2Proof.Machine.execElen p len s
  | .dlen len => Sys2Proof.Machine.execDlen len s
  | .enc n a b c => Sys2Proof.Machine.execEnc n a b c s
  | .dec n s0 s1 s2 s3 => Sys2Proof.Machine.execDec n s0 s1 s2 s3 s
  | .cfg padc pen alpha => Sys2Proof.Machine.execCfg padc pen alpha s
  | .rdcfg => Sys2Proof.Machine.execRdcfg s

end Sys2Proof.Machine
end

