-- ==== Sys2Proof/Machine/Ports.lean ====
section
/-! DEFINITION. The two ports at a rising edge (20_memory.md R41 to R44, R54) and the reset input
(70_reset_and_hazards.md R150 to R153). The output signals are functions of the state before the
edge and of the edge; what they let transfer is applied by the operations below. -/

namespace Sys2Proof.Machine

/-! ## Output signals -/

/-- `RSPQ` holds fewer than `DEPTH` responses (R54). -/
def hasRoom (s : State) : Bool := decide (s.rspq.length < Config.depth)

/-- `cmd_ready`: 0 while `rst` = 1 (R152), 0 whenever RSPQ holds DEPTH responses, otherwise the
block's free choice (R54). RSPQ is counted before this edge's own response transfer (log 6). -/
def cmdReady (e : Edge) (s : State) : Bool := !e.rst && e.readyChoice && hasRoom s

/-- The head of RSPQ may be presented: RSPQ is not empty and at least `LAT` cycles have passed since
the head's command was accepted (R42). The coming edge is `age + 1` cycles after that acceptance. -/
def headDue (s : State) : Bool :=
  match s.rspq with
  | [] => false
  | q :: _ => decide (Config.lat ≤ q.age + 1)

/-- `rsp_valid`: 0 while `rst` = 1 (R152), 1 only while the head may be presented (R42); there it
stays 1 once raised (R43) and is otherwise the block's free choice. -/
def rspValid (e : Edge) (s : State) : Bool := !e.rst && headDue s && (s.rspRaised || e.validChoice)

/-- `rsp_data`: the head of RSPQ (10_state.md R35). The spec gives it no value while RSPQ is empty
(log 11). -/
def rspData (s : State) : Option RspWord := s.rspq.head?.map Queued.word

/-- A command transfers at this edge (R42). -/
def cmdTransfers (e : Edge) (s : State) : Bool := !e.rst && e.cmdValid && cmdReady e s

/-- A response transfers at this edge (R42). -/
def rspTransfers (e : Edge) (s : State) : Bool := !e.rst && rspValid e s && e.rspReady

/-! ## The host's stability duty (R43, R159) -/

/-- The refusal a host earns at an edge without reset when it has not kept the command it offered:
it dropped `cmd_valid`, or changed `cmd_data` (R43; 93_implementation_defined.md I11). -/
def brokenDuty (e : Edge) (s : State) : Option Refusal :=
  match s.cmdOffer with
  | none => none
  | some w =>
    if e.cmdValid then
      if e.cmdData = w then none else some .hostChangedOffer
    else some .hostDroppedOffer

/-! ## What an edge does to the ports -/

/-- A cycle passes for every queued response. -/
def ageQueue (s : State) : State :=
  { s with rspq := s.rspq.map fun q => { q with age := q.age + 1 } }

/-- The response port takes the head: it is removed from RSPQ and delivered (R42), and `rsp_valid`
no longer stands for it. -/
def deliverHead (s : State) : State :=
  match s.rspq with
  | [] => s
  | q :: rest =>
    { s with rspq := rest, delivered := s.delivered ++ [q.word], rspRaised := false }

/-- The response port at an edge without reset: the head transfers, or `rsp_valid` is remembered as
raised (R42, R43). -/
def responsePort (e : Edge) (s : State) : State :=
  if rspTransfers e s then deliverHead s else { s with rspRaised := rspValid e s }

/-- The command port's memory after an edge without reset: a command offered and not transferred
is held to R43; otherwise nothing is. -/
def noteOffer (e : Edge) (s : State) : State :=
  { s with cmdOffer := if e.cmdValid && !cmdReady e s then some e.cmdData else none }

/-- Everything an edge without reset does to the ports, but for executing the command it may
accept: the signals of the edge are those of `s`, the state before it. -/
def portActions (e : Edge) (s : State) : State := ageQueue (responsePort e (noteOffer e s))

/-- The record of an acceptance (R50, R57). -/
def noteAccepted (w : CmdWord) (s : State) : State := { s with accepted := s.accepted ++ [w] }

/-- A rising edge with `rst` = 1 (R150 to R153): the reset state, whatever was pending being
discarded. What the host will do at later edges is not the block's to change. -/
def resetEdge (s : State) : State := { State.reset with edges := s.edges }

end Sys2Proof.Machine
end

