-- ==== Sys2Proof/Machine/Execute.lean ====
section
/-! DEFINITION. Accepting a command word and running one rising edge. A command is executed entirely
at the edge that accepts it (20_memory.md R53). -/

namespace Sys2Proof.Machine

/-- What an accepted word does: the command it decodes to is executed; a word that decodes to none
raises ILLEGAL (30_encoding.md R73; 60_exceptions.md R131). -/
def executeWord (w : CmdWord) (s : State) : Host.Outcome State Fault Refusal :=
  match decode w with
  | .ok i => exec i s
  | .error _ => raiseIllegal (opcOf w) s

/-- Accept a word: record it in the session (R50) and execute it. -/
def acceptWord (w : CmdWord) (s : State) : Host.Outcome State Fault Refusal :=
  executeWord w (noteAccepted w s)

/-- One rising edge of `clk`. With `rst` = 1 the block resets (R150). Otherwise a host that broke its
stability duty is refused (R43, I11); else the ports act (R42) and a command that transfers is
accepted (R50, R53). -/
def clockEdge (e : Edge) (s : State) : Host.Outcome State Fault Refusal :=
  if e.rst then .next (resetEdge s)
  else
    match brokenDuty e s with
    | some r => .refused r
    | none =>
      if cmdTransfers e s then acceptWord e.cmdData (portActions e s)
      else .next (portActions e s)

/-- The next listed edge happens; with none listed the clock does not tick and nothing changes
(log 1). -/
def nextEdge (s : State) : Host.Outcome State Fault Refusal :=
  match s.edges with
  | [] => .next s
  | e :: rest => clockEdge e { s with edges := rest }

/-! ## Offering a word at the next edge -/

/-- An edge at which the host offers `w` and the block is ready; the host takes no response. -/
def offerEdge (w : CmdWord) : Edge where
  rst := false
  cmdValid := true
  cmdData := w
  rspReady := false
  readyChoice := true
  validChoice := false

/-- If RSPQ is full the host first takes every response, so that `cmd_ready` can be 1 (R54, R158). -/
def makeRoom (s : State) : State :=
  if hasRoom s then s
  else { s with rspq := [], delivered := s.delivered ++ s.rspq.map Queued.word, rspRaised := false }

/-- The host offers `w` at the very next edge, ahead of whatever is listed, no other offer being
open, and the block has room and is ready. -/
def offerNext (w : CmdWord) (s : State) : State :=
  { makeRoom s with cmdOffer := none, edges := offerEdge w :: s.edges }

end Sys2Proof.Machine
end

