-- ==== Sys2Proof/Machine/Step.lean ====
section
/-! DEFINITION. One step of the machine is one rising edge of `clk` (20_memory.md R41, R42), and the
host's way to place one command word where the next step runs it. The block fetches nothing
(10_state.md R22, 20_memory.md R52): the word stands on the command port. -/

namespace Sys2Proof.Machine

def step (s : State) : Host.Outcome State Fault Refusal := nextEdge s

/-- `s` with the command word of a table row offered on the command port at the next edge, the
block ready to take it (log 1). -/
def State.withFetchWord (s : State) (nbits w : Nat) : State := offerNext (tableWord nbits w) s

end Sys2Proof.Machine
end

