-- ==== Sys2Proof/Machine/Assembler.lean ====
section
/-! DEFINITION. The command syntax of 30_encoding.md R75, as data: one constructor per line of R75's
table, operands already read as numbers or symbols of their fields' widths. An assembled word may be
ILLEGAL (`ENC 0, …`): R75 gives the word, R73 decides. -/

namespace Sys2Proof.Machine

/-- A line of R75's syntax. -/
inductive AsmLine where
  /-- `ELEN p, len` -/
  | elen (p : Bool) (len : LenWord)
  /-- `DLEN len` -/
  | dlen (len : LenWord)
  /-- `ENC n, 0xAABBCC` -/
  | enc (n : BitVec 3) (data : BitVec 24)
  /-- `DEC n, "wxyz"`: the four characters' codes -/
  | decText (n : BitVec 3) (w x y z : Symbol)
  /-- `DEC n, 0xSSTTUUVV` -/
  | decWord (n : BitVec 3) (data : BitVec 32)
  /-- `CFG alpha, pen, padc` -/
  | cfg (alpha : Alphabet) (pen : Bool) (padc : Symbol)
  /-- `RDCFG` -/
  | rdcfg
deriving DecidableEq, Repr

/-- R75: "an absent position written as a space and encoded as 0x00". -/
def asmSymbol (n : BitVec 3) (i : Nat) (x : Symbol) : Symbol := if i < n.toNat then x else 0x00#8

/-- R75: the command a line stands for. -/
def AsmLine.instr : AsmLine → Instr
  | .elen p len => .elen p len
  | .dlen len => .dlen len
  | .enc n data => .enc n (data.extractLsb' 16 8) (data.extractLsb' 8 8) (data.extractLsb' 0 8)
  | .decText n w x y z =>
    .dec n (asmSymbol n 0 w) (asmSymbol n 1 x) (asmSymbol n 2 y) (asmSymbol n 3 z)
  | .decWord n data =>
    .dec n (data.extractLsb' 24 8) (data.extractLsb' 16 8) (data.extractLsb' 8 8)
      (data.extractLsb' 0 8)
  | .cfg alpha pen padc => .cfg padc pen alpha
  | .rdcfg => .rdcfg

/-- The word of a line (R75). -/
def assemble (l : AsmLine) : CmdWord := encode l.instr

end Sys2Proof.Machine
end

