-- ==== Sys2Proof/Machine/Session.lean ====
section
/-! DEFINITION. Runs of the block as a host sees them: a run over listed edges, the same commands at
transaction level (20_memory.md R53), and the end of a session (R57). -/

namespace Sys2Proof.Machine

/-- The edges `es` happen, one after another. -/
def runEdges : List Edge → State → Host.Outcome State Fault Refusal
  | [], s => .next s
  | e :: es, s =>
    match clockEdge e s with
    | .next t => runEdges es t
    | .fault f => .fault f
    | .refused r => .refused r

/-- The words `ws` are accepted one after another, each executed entirely at its acceptance: the
transaction-level machine of R53, which has no ports. -/
def runWords : List CmdWord → State → Host.Outcome State Fault Refusal
  | [], s => .next s
  | w :: ws, s =>
    match acceptWord w s with
    | .next t => runWords ws t
    | .fault f => .fault f
    | .refused r => .refused r

/-- The responses queued, without their ages. -/
def queuedWords (s : State) : List RspWord := s.rspq.map Queued.word

/-- The responses the words `ws` get when accepted one after another at `s`, in order. -/
def answers (ws : List CmdWord) (s : State) : List RspWord :=
  match runWords ws s with
  | .next t => (queuedWords t).drop s.rspq.length
  | .fault _ => []
  | .refused _ => []

/-- R57: "A session has ended when the host stops offering commands and every accepted command's
response has been delivered". R57 does not say whether an offer made only at or after a later reset
counts; here every listed edge does, also those from a reset edge on: DESIGN CHOICE, safe (log 20). -/
def sessionEnded (s : State) : Bool :=
  s.cmdOffer.isNone && s.edges.all (fun e => !e.cmdValid) && s.rspq.isEmpty

/-- R57: "the end state is the value of `CODEC_CFG` and the list of delivered responses". -/
def sessionResult (s : State) : BitVec 16 × List RspWord := (readCfg s, s.delivered)

end Sys2Proof.Machine
end

