-- ==== Sys2Proof/Machine/Message.lean ====
section
/-! DEFINITION. Whole messages: how a host frames one (20_memory.md R46), the source's whole-message
functions as the spec describes them (41_encode.md R97, 42_decode.md R108), and the four entry
points as command sequences (43_config.md R117 to R122). The conversion of a text string to UTF-8
bytes is outside the block (00_scope.md R5, 43_config.md R123). -/

namespace Sys2Proof.Machine

/-! ## Framing (R46) -/

/-- R46: the ENC commands of a byte sequence, 3 bytes a group, the last group holding the rest;
absent bytes are written as 00 (30_encoding.md R75). -/
def encGroups : List Byte → List Instr
  | [] => []
  | [a] => [.enc 1#3 a 0#8 0#8]
  | [a, b] => [.enc 2#3 a b 0#8]
  | a :: b :: c :: rest => .enc 3#3 a b c :: encGroups rest

/-- R46: the DEC commands of a text, 4 symbols a group, the last group holding the rest. -/
def decGroups : List Symbol → List Instr
  | [] => []
  | [s0] => [.dec 1#3 s0 0#8 0#8 0#8]
  | [s0, s1] => [.dec 2#3 s0 s1 0#8 0#8]
  | [s0, s1, s2] => [.dec 3#3 s0 s1 s2 0#8]
  | s0 :: s1 :: s2 :: s3 :: rest => .dec 4#3 s0 s1 s2 s3 :: decGroups rest

/-- "the first `CNT` symbols" of an ENC response (R46, R72). -/
def encPayload (r : RspWord) : List Symbol := (unpack 4 r).take (rspCnt r).toNat

/-- "the first `CNT` bytes" of a DEC response (R46, R72). -/
def decPayload (r : RspWord) : List Byte := (unpack 3 r).take (rspCnt r).toNat

/-- R46: "The text is the concatenation, in order, of the first `CNT` symbols of each response." -/
def encodeMessage (m : List Byte) (s : State) : List Symbol :=
  (answers ((encGroups m).map encode) s).flatMap encPayload

/-- R46: "The bytes are the concatenation, in order, of the first `CNT` bytes of each response." -/
def decodeMessage (t : List Symbol) (s : State) : List Byte :=
  (answers ((decGroups t).map encode) s).flatMap decPayload

/-! ## The source's functions on whole messages -/

/-- The symbol of a value given on 8 bits (41_encode.md R91 writes the values as 8-bit
expressions, R92 bounds them by 63). -/
def bjsSymbol (al : Alphabet) (x : Byte) : Symbol := encLut al (x.setWidth 6)

/-- The source's data symbols: "consecutive 3-byte windows of the input" (20_memory.md R46), each
with the source's expressions (41_encode.md R91), a missing byte being 0 in them; "2 symbols for a
1-byte remainder, 3 symbols for a 2-byte remainder, 4 symbols for a full 3-byte group" (R95). -/
def bjsSymbols (al : Alphabet) : List Byte → List Symbol
  | [] => []
  | [a] => [bjsSymbol al (a >>> 2), bjsSymbol al ((a &&& 3#8) <<< 4)]
  | [a, b] =>
    [bjsSymbol al (a >>> 2), bjsSymbol al (((a &&& 3#8) <<< 4) ||| (b >>> 4)),
      bjsSymbol al ((b &&& 15#8) <<< 2)]
  | a :: b :: c :: rest =>
    bjsSymbol al (a >>> 2) :: bjsSymbol al (((a &&& 3#8) <<< 4) ||| (b >>> 4)) ::
      bjsSymbol al (((b &&& 15#8) <<< 2) ||| (c >>> 6)) :: bjsSymbol al (c &&& 63#8) ::
      bjsSymbols al rest

/-- `encode_BJS` (R97): the data symbols and, where a padding symbol is configured, that symbol
"repeatedly until total output length is a multiple of 4" (R94). -/
def bjsEncode (al : Alphabet) (pad : Option Symbol) (m : List Byte) : List Symbol :=
  let data := bjsSymbols al m
  match pad with
  | none => data
  | some x => data ++ List.replicate ((4 - data.length % 4) % 4) x

/-- The bytes of a chunk whose four positions have these values, `none` for the source's -1 (R102,
R105). The bytes are those of the 24 bits `H = {a, b, c, d}` (42_decode.md R103), an unresolved
value being 0. -/
def bjsChunk (r0 r1 r2 r3 : Option Sextet) : List Byte :=
  match r0, r1 with
  | some a, some b =>
    let h : BitVec 24 := a ++ b ++ r2.getD 0#6 ++ r3.getD 0#6
    [h.extractLsb' 16 8]
      ++ (if r2.isSome then [h.extractLsb' 8 8] else [])
      ++ (if r3.isSome then [h.extractLsb' 0 8] else [])
  | _, _ => []

/-- `decode_BJS` (R108): "fixed chunks of 4 input symbols (not validated, not resynchronized"
(20_memory.md R46); a position the text does not reach is unresolved (R101). -/
def bjsDecode (al : Alphabet) : List Symbol → List Byte
  | [] => []
  | [s0] => bjsChunk (decLut al s0) none none none
  | [s0, s1] => bjsChunk (decLut al s0) (decLut al s1) none none
  | [s0, s1, s2] => bjsChunk (decLut al s0) (decLut al s1) (decLut al s2) none
  | s0 :: s1 :: s2 :: s3 :: rest =>
    bjsChunk (decLut al s0) (decLut al s1) (decLut al s2) (decLut al s3) ++ bjsDecode al rest

/-- The padding symbol a configuration stands for: PADC when PEN = 1, none when PEN = 0 (43_config.md
R117). -/
def cfgPad (g : BitVec 16) : Option Symbol := if cfgPen g then some (cfgPadc g) else none

/-! ## The entry points (R118 to R122) -/

/-- Why the host refuses an entry point's arguments. -/
inductive HostRefusal where
  /-- R118: "A padding argument longer than one symbol cannot be configured; the host must refuse
  it" (93_implementation_defined.md I10). -/
  | paddingTooLong
deriving DecidableEq, Repr

/-- R117, R118: PEN and PADC of a padding argument: one symbol gives PEN = 1 and its code, the empty
string PEN = 0. The PADC sent with PEN = 0 is 0x00: R120 to R122 write it so for the default arguments
of the other entry points, but for `encode` with an empty padding the spec gives none (R117: "any
`PADC`"), and 0x00 is the model's there: DESIGN CHOICE, unsafe (log 21). -/
def paddingConfig : List Symbol → Except HostRefusal (Bool × Symbol)
  | [] => .ok (false, 0x00#8)
  | [x] => .ok (true, x)
  | _ :: _ :: _ => .error .paddingTooLong

/-- The CFG of a one-shot codec, then the groups (43_config.md, "The entry points"). -/
def oneShot (al : Alphabet) (padding : List Symbol) (groups : List Instr) :
    Except HostRefusal (List Instr) :=
  match paddingConfig padding with
  | .ok (pen, padc) => .ok (.cfg padc pen al :: groups)
  | .error r => .error r

/-- `encode(binary, padding='=')` (R119). -/
def entryEncode (binary : List Byte) (padding : List Symbol := [0x3D#8]) :
    Except HostRefusal (List Instr) := oneShot .standard padding (encGroups binary)

/-- `decode(text, padding='')` (R120); the padding does not change DEC. -/
def entryDecode (text : List Symbol) (padding : List Symbol := []) :
    Except HostRefusal (List Instr) := oneShot .standard padding (decGroups text)

/-- `urlEncode(binary, padding='')` (R121). -/
def entryUrlEncode (binary : List Byte) (padding : List Symbol := []) :
    Except HostRefusal (List Instr) := oneShot .urlSafe padding (encGroups binary)

/-- `urlDecode(text, padding='')` (R122): "`CFG 1, 0, 0x00` (the padding does not change DEC)". A
padding argument longer than one symbol is refused as everywhere (R118). -/
def entryUrlDecode (text : List Symbol) (padding : List Symbol := []) :
    Except HostRefusal (List Instr) :=
  match paddingConfig padding with
  | .ok _ => .ok (.cfg 0x00#8 false .urlSafe :: decGroups text)
  | .error r => .error r

/-- The output of an encoding entry point run at `s`: the symbols of the group responses, the CFG's
own response being first and carrying none. -/
def entryText (cmds : List Instr) (s : State) : List Symbol :=
  ((answers (cmds.map encode) s).drop 1).flatMap encPayload

/-- The output of a decoding entry point run at `s`. -/
def entryBytes (cmds : List Instr) (s : State) : List Byte :=
  ((answers (cmds.map encode) s).drop 1).flatMap decPayload

end Sys2Proof.Machine
end

