-- ==== Sys2Proof/Safety.lean ====
section
/-! DEFINITION. What a safe run is: the invariants a state of the block meets, the host's duties and
the fairness of the block's free choices, in the terms the statements use. -/

namespace Sys2Proof.Machine

/-! ## Invariants of a state -/

/-- Bits 7:2 of `CODEC_CFG` are 0 (10_state.md R27). -/
def State.CfgReservedZero (s : State) : Prop := s.codecCfg.extractLsb' 2 6 = 0#6

/-- `RSPQ` is "at most `DEPTH` long" (10_state.md R35). -/
def State.QueueBounded (s : State) : Prop := s.rspq.length ≤ Config.depth

/-- `rsp_valid` is remembered as raised only for a head that may be presented (20_memory.md R42,
R43). -/
def State.RaisedIsDue (s : State) : Prop := s.rspRaised = true → headDue s = true

/-- The fields of a response word are in the ranges of 30_encoding.md R71 and R72: ST is OK or
ILLEGAL, bit 51 is 0, CNT is at most 4, and an ILLEGAL response carries nothing else than its
opcode byte (60_exceptions.md R131). -/
def LegalResponse (r : RspWord) : Prop :=
  (rspSt r = Status.ok.code ∨ (rspSt r = Status.illegal.code ∧ r = illegalResponse (rspOpc r))) ∧
    rspBit51 r = false ∧ (rspCnt r).toNat ≤ 4

/-- Every response queued or delivered is a legal one (60_exceptions.md R132). -/
def State.ResponsesLegal (s : State) : Prop := ∀ r ∈ s.delivered ++ queuedWords s, LegalResponse r

/-- The ordering model (20_memory.md R50) as one fact of a state: accepting the session's commands
one after another from reset, with no ports (R53), gives this `CODEC_CFG`, and gives, in order, the
responses delivered so far and those still queued. -/
def State.InOrder (s : State) : Prop :=
  ∃ t, runWords s.accepted State.reset = .next t ∧ t.codecCfg = s.codecCfg ∧
    queuedWords t = s.delivered ++ queuedWords s

/-- The invariant of the block. -/
structure State.Inv (s : State) : Prop where
  cfgReservedZero : s.CfgReservedZero
  queueBounded : s.QueueBounded
  raisedIsDue : s.RaisedIsDue
  responsesLegal : s.ResponsesLegal
  inOrder : s.InOrder

/-! ## Schedules, duties, fairness -/

/-- The first `n` edges of an endless schedule happen. -/
def afterEdges (E : Nat → Edge) (n : Nat) (s : State) : Host.Outcome State Fault Refusal :=
  runEdges ((List.range n).map E) s

/-- The block's promise of 20_memory.md R55, read on its free choices: it goes on choosing to raise
`rsp_valid` and `cmd_ready`, without any bound on the wait (log 10). -/
structure FairChoices (E : Nat → Edge) : Prop where
  valid : ∀ n, ∃ m, n ≤ m ∧ (E m).validChoice = true
  ready : ∀ n, ∃ m, n ≤ m ∧ (E m).readyChoice = true

end Sys2Proof.Machine
end

