-- ==== Sys2Proof/Certificates/Slice0/Obligations.lean ====
section
/-! DEFINITION. The statements for the provers. Each docstring names the rule of spec/ it formalises.
"Derived" in a docstring: the spec marks the rule as its own inference, or the statement rests on a
convention of the model that the docstring names. -/

open Sys2Proof Sys2Proof.Machine

/-! ## Encoding -/

/-- Every well-formed command's word decodes to that command (30_encoding.md R61 to R64, R73). -/
def Obligations.DecodeOfEncodeIsTheCommand : Prop :=
  ∀ i : Instr, i.wf = true → decode (encode i) = .ok i

/-- A word that decodes is the word of the well-formed command it decodes to: no bit of it is
dropped, and no two words stand for one command (30_encoding.md R66, R73). -/
def Obligations.EncodeOfDecodeIsTheWord : Prop :=
  ∀ (C : CmdWord) (i : Instr), decode C = .ok i → i.wf = true ∧ encode i = C

/-- The decoding procedure of R73 and the mask and match table of R65 agree: a word is a command of
a row exactly when it has the row's fixed bits and, for ENC and DEC, a CNT in range. -/
def Obligations.CommandWordsAreTheTableRows : Prop :=
  ∀ r ∈ opcodeTable, ∀ C : CmdWord,
    (∃ i, decode C = .ok i ∧ i.mnemonic = r.mnemonic) ↔
      (C &&& r.mask = r.value ∧ r.countOk C = true)

/-- R130: ILLEGAL is the one exceptional event, its causes are an unassigned opcode, a reserved bit
set under an assigned opcode, and CNT out of range for ENC or DEC; a command that decodes responds
with status OK whatever its bytes, symbols, length or configuration. -/
def Obligations.IllegalHasExactlyThreeCauses : Prop :=
  (∀ C : CmdWord,
    (∃ why, decode C = .error why) ↔
      ((∀ r ∈ opcodeTable, opcOf C ≠ opcOf r.value) ∨
        (∃ r ∈ opcodeTable, opcOf C = opcOf r.value ∧ C &&& r.mask ≠ r.value) ∨
        (opcOf C = 0x10#8 ∧ ¬(1 ≤ (cntOf C).toNat ∧ (cntOf C).toNat ≤ 3)) ∨
        (opcOf C = 0x20#8 ∧ ¬(1 ≤ (cntOf C).toNat ∧ (cntOf C).toNat ≤ 4)))) ∧
  (∀ (C : CmdWord) (s : State) (i : Instr), decode C = .ok i →
    ∃ r t, executeWord C s = .next t ∧ t.rspq = s.rspq ++ [⟨r, 0⟩] ∧ rspSt r = 0x0#4) ∧
  (∀ (C : CmdWord) (s : State) (why : IllegalCause), decode C = .error why →
    executeWord C s = .next (respond (illegalResponse (opcOf C)) s))

/-- Words written out bit by bit from R61 to R64, one per command, decode to their commands. -/
def Obligations.WordsFromTheFormatsDecode : Prop :=
  decode 0x0101000000000007#64 = .ok (.elen true 7#32) ∧
  decode 0x0200000000000005#64 = .ok (.dlen 5#32) ∧
  decode 0x10020000004D61FF#64 = .ok (.enc 2#3 0x4D#8 0x61#8 0xFF#8) ∧
  decode 0x200400006247513D#64 = .ok (.dec 4#3 0x62#8 0x47#8 0x51#8 0x3D#8) ∧
  decode 0x3000000000002A01#64 = .ok (.cfg 0x2A#8 false .urlSafe) ∧
  decode 0x3100000000000000#64 = .ok .rdcfg

/-- R70: every operand is its field of the word, with no sign extension, scaling or shift; the
fields are written here as quotients and remainders of the word's number. -/
def Obligations.OperandsAreTheFieldsOfTheWord : Prop :=
  (∀ (C : CmdWord) (i : Instr), decode C = .ok i → i.opcode.toNat = C.toNat / 2 ^ 56) ∧
  (∀ (C : CmdWord) (p : Bool) (len : LenWord), decode C = .ok (.elen p len) →
    p.toNat = C.toNat / 2 ^ 48 % 2 ∧ len.toNat = C.toNat % 2 ^ 32) ∧
  (∀ (C : CmdWord) (len : LenWord), decode C = .ok (.dlen len) → len.toNat = C.toNat % 2 ^ 32) ∧
  (∀ (C : CmdWord) (n : BitVec 3) (a b c : Byte), decode C = .ok (.enc n a b c) →
    n.toNat = C.toNat / 2 ^ 48 % 8 ∧ a.toNat = C.toNat / 2 ^ 16 % 256 ∧
      b.toNat = C.toNat / 2 ^ 8 % 256 ∧ c.toNat = C.toNat % 256) ∧
  (∀ (C : CmdWord) (n : BitVec 3) (w x y z : Symbol), decode C = .ok (.dec n w x y z) →
    n.toNat = C.toNat / 2 ^ 48 % 8 ∧ w.toNat = C.toNat / 2 ^ 24 % 256 ∧
      x.toNat = C.toNat / 2 ^ 16 % 256 ∧ y.toNat = C.toNat / 2 ^ 8 % 256 ∧
      z.toNat = C.toNat % 256) ∧
  (∀ (C : CmdWord) (padc : Symbol) (pen : Bool) (alpha : Alphabet),
    decode C = .ok (.cfg padc pen alpha) →
    padc.toNat = C.toNat / 2 ^ 8 % 256 ∧ pen.toNat = C.toNat / 2 % 2 ∧
      alpha.bit.toNat = C.toNat % 2)

/-- R75: the words of the command syntax: `ENC n, 0xAABBCC` and `DEC n, 0xSSTTUUVV` carry their
number as the data field, an absent position of `DEC n, "wxyz"` is encoded as 0x00, and the other
lines carry their operands in their fields. -/
def Obligations.AssembledLinesAreTheirWords : Prop :=
  (∀ (p : Bool) (len : LenWord),
    (assemble (.elen p len)).toNat = 0x01 * 2 ^ 56 + p.toNat * 2 ^ 48 + len.toNat) ∧
  (∀ len : LenWord, (assemble (.dlen len)).toNat = 0x02 * 2 ^ 56 + len.toNat) ∧
  (∀ (n : BitVec 3) (data : BitVec 24),
    (assemble (.enc n data)).toNat = 0x10 * 2 ^ 56 + n.toNat * 2 ^ 48 + data.toNat) ∧
  (∀ (n : BitVec 3) (data : BitVec 32),
    (assemble (.decWord n data)).toNat = 0x20 * 2 ^ 56 + n.toNat * 2 ^ 48 + data.toNat) ∧
  (∀ (n : BitVec 3) (w x y z : Symbol),
    (assemble (.decText n w x y z)).toNat = 0x20 * 2 ^ 56 + n.toNat * 2 ^ 48 +
      (if 0 < n.toNat then w.toNat else 0) * 2 ^ 24 +
      (if 1 < n.toNat then x.toNat else 0) * 2 ^ 16 +
      (if 2 < n.toNat then y.toNat else 0) * 2 ^ 8 + (if 3 < n.toNat then z.toNat else 0)) ∧
  (∀ (alpha : Alphabet) (pen : Bool) (padc : Symbol),
    (assemble (.cfg alpha pen padc)).toNat =
      0x30 * 2 ^ 56 + padc.toNat * 2 ^ 8 + pen.toNat * 2 + alpha.bit.toNat) ∧
  (assemble .rdcfg).toNat = 0x31 * 2 ^ 56

/-! ## Alphabet tables -/

/-- R28, R29: the symbol of each value, in both alphabets. -/
def Obligations.AlphabetsAreTheTwoTables : Prop :=
  ∀ v : Sextet,
    (encLut .standard v).toNat =
      (if v.toNat < 26 then 0x41 + v.toNat
        else if v.toNat < 52 then 0x61 + (v.toNat - 26)
        else if v.toNat < 62 then 0x30 + (v.toNat - 52)
        else if v.toNat = 62 then 0x2B else 0x2F) ∧
    (encLut .urlSafe v).toNat =
      (if v.toNat < 62 then (encLut .standard v).toNat
        else if v.toNat = 62 then 0x2D else 0x5F)

/-- R30, R31 (derived): DEC_LUT is the reverse of ENC_LUT, and no two values share a symbol. -/
def Obligations.ReverseTableInvertsTheAlphabet : Prop :=
  ∀ (al : Alphabet) (x : Symbol) (v : Sextet), decLut al x = some v ↔ encLut al v = x

/-! ## What every command does -/

/-- Every command completes in every state: it appends exactly one response, changes `CODEC_CFG`
only if it is a CFG, and changes nothing else (20_memory.md R48, derived; for an ENC or DEC value with
CNT out of range, which no word decodes to, log 12). -/
def Obligations.EveryCommandAppendsOneResponseAndOnlyCfgWrites : Prop :=
  ∀ (i : Instr) (s : State), ∃ r t, exec i s = .next t ∧
    t.rspq = s.rspq ++ [⟨r, 0⟩] ∧ rspOpc r = i.opcode ∧
    ((∀ padc pen alpha, i ≠ .cfg padc pen alpha) → t.codecCfg = s.codecCfg) ∧
    t.rspRaised = s.rspRaised ∧ t.cmdOffer = s.cmdOffer ∧ t.edges = s.edges ∧
    t.accepted = s.accepted ∧ t.delivered = s.delivered

/-- ENC, DEC, ELEN, DLEN and RDCFG are pure functions of the command and `CODEC_CFG`: at any two
states with one `CODEC_CFG` they give one response (20_memory.md R48, derived; for an ENC or DEC value
with CNT out of range, which no word decodes to, log 12). -/
def Obligations.QueriesArePureFunctionsOfTheConfiguration : Prop :=
  ∀ i : Instr, (∀ padc pen alpha, i ≠ .cfg padc pen alpha) →
    ∃ f : BitVec 16 → RspWord, ∀ s : State, exec i s = .next (respond (f (readCfg s)) s)

/-! ## ELEN and DLEN -/

/-- R80: ELEN completes with `ceil(len * 4 / 3)`, rounded up to a multiple of 4 when `p` = 1, as an
unsigned 48-bit result that never wraps; a reserved bit set makes the word ILLEGAL. -/
def Obligations.ElenRespondsTheEncodedLength : Prop :=
  (∀ (p : Bool) (len : LenWord) (s : State), ∃ r base res,
    exec (.elen p len) s = .next (respond r s) ∧
    (∀ m : Nat, 4 * len.toNat ≤ 3 * m ↔ base ≤ m) ∧
    (p = false → res = base) ∧
    (p = true → res % 4 = 0 ∧ base ≤ res ∧ res < base + 4) ∧
    rspOpc r = 0x01#8 ∧ rspSt r = 0#4 ∧ rspBit51 r = false ∧ rspCnt r = 0#3 ∧
    (rspPayload r).toNat = res ∧ res < 2 ^ 33 ∧
    (len.toNat = 0 → res = 0) ∧ (len.toNat = 2 ^ 32 - 1 → res = 5726623060)) ∧
  (∀ (C : CmdWord) (s : State), opcOf C = 0x01#8 → C &&& 0x00FEFFFF00000000#64 ≠ 0#64 →
    executeWord C s = .next (respond (illegalResponse 0x01#8) s))

/-- R81: DLEN completes with `ceil(len * 3 / 4)` rounded up to a multiple of 3, which is a capacity:
no text of `len` symbols decodes to more bytes, and `AA` decodes to fewer; bit 48 or another reserved bit set makes the word
ILLEGAL. -/
def Obligations.DlenRespondsTheDecodedCapacity : Prop :=
  (∀ (len : LenWord) (s : State), ∃ r minLength res,
    exec (.dlen len) s = .next (respond r s) ∧
    (∀ m : Nat, 3 * len.toNat ≤ 4 * m ↔ minLength ≤ m) ∧
    res % 3 = 0 ∧ minLength ≤ res ∧ res < minLength + 3 ∧
    rspOpc r = 0x02#8 ∧ rspSt r = 0#4 ∧ rspBit51 r = false ∧ rspCnt r = 0#3 ∧
    (rspPayload r).toNat = res ∧ res < 2 ^ 32 ∧
    (len.toNat = 0 → res = 0) ∧ (len.toNat = 2 ^ 32 - 1 → res = 3221225472) ∧
    (∀ (t : List Symbol) (u : State), t.length = len.toNat → (decodeMessage t u).length ≤ res)) ∧
  (∀ s : State, dlenResult 2 = 3 ∧ (decodeMessage [0x41#8, 0x41#8] s).length = 1) ∧
  (∀ (C : CmdWord) (s : State), opcOf C = 0x02#8 → C &&& 0x00FFFFFF00000000#64 ≠ 0#64 →
    executeWord C s = .next (respond (illegalResponse 0x02#8) s))

/-- R82, R83 (derived): the closed forms of the two calculators. -/
def Obligations.LengthClosedForms : Prop :=
  (∀ q r : Nat, r < 3 → elenResult false (3 * q + r) = 4 * q + (if r = 0 then 0 else r + 1)) ∧
  (∀ len : Nat, elenResult true len = 4 * ((len + 2) / 3)) ∧
  (∀ len : Nat, dlenResult len = 3 * ((len + 3) / 4))

/-! ## ENC -/

/-- R90: ENC of a group of `n` present bytes completes with the symbols of the 6-bit pieces of the
24-bit group (an absent byte being 0), padded with PADC to 4 when PEN = 1; the symbols stand
most-significant first in the response, unused slots are 0x00. `CNT` outside 1..3 or a reserved bit
set makes the word ILLEGAL. -/
def Obligations.EncRespondsTheGroupsSymbols : Prop :=
  (∀ (n : BitVec 3) (a b c : Byte) (s : State), 1 ≤ n.toNat → n.toNat ≤ 3 → ∃ r,
    exec (.enc n a b c) s = .next (respond r s) ∧
    ∃ syms : List Symbol,
      syms =
        (List.range (n.toNat + 1)).map (fun i =>
          encLut (cfgAlpha (readCfg s)) (BitVec.ofNat 6
            ((a.toNat * 2 ^ 16 + (if 2 ≤ n.toNat then b.toNat else 0) * 2 ^ 8 +
              (if n.toNat = 3 then c.toNat else 0)) / 2 ^ (18 - 6 * i)))) ++
        (if cfgPen (readCfg s) then List.replicate (3 - n.toNat) (cfgPadc (readCfg s)) else []) ∧
      rspOpc r = 0x10#8 ∧ rspSt r = 0#4 ∧ rspBit51 r = false ∧ (rspCnt r).toNat = syms.length ∧
      r.extractLsb' 32 16 = 0#16 ∧ ∀ p < 4, fieldByte 4 p r = syms.getD p 0x00#8) ∧
  (∀ (C : CmdWord) (s : State), opcOf C = 0x10#8 →
    (C &&& 0x00F8FFFFFF000000#64 ≠ 0#64 ∨ ¬(1 ≤ (cntOf C).toNat ∧ (cntOf C).toNat ≤ 3)) →
    executeWord C s = .next (respond (illegalResponse 0x10#8) s))

/-- R91: the four values of the regrouper are the source's expressions on 8 bits, an absent byte
being 0 in them even if the word carries another value at its position. -/
def Obligations.EncRegrouperIsTheSourcesExpressions : Prop :=
  ∀ (n : BitVec 3) (a b c : Byte), 1 ≤ n.toNat → n.toNat ≤ 3 →
    ∃ b' c' : Byte, b' = (if 2 ≤ n.toNat then b else 0#8) ∧ c' = (if n.toNat = 3 then c else 0#8) ∧
      encGroup n a b c = a ++ b' ++ c' ∧
      (encValues (encGroup n a b c)).map (BitVec.setWidth 8) =
        [a >>> 2, ((a &&& 3#8) <<< 4) ||| (b' >>> 4), ((b' &&& 15#8) <<< 2) ||| (c' >>> 6),
          c' &&& 63#8]

/-- R95: a group of `n` present bytes emits `n + 1` data symbols, and CNT of the response is `n + 1`
with PEN = 0 or 4 with PEN = 1. -/
def Obligations.EncSymbolCount : Prop :=
  ∀ (n : BitVec 3) (a b c : Byte) (s : State), 1 ≤ n.toNat → n.toNat ≤ 3 →
    (encDataSymbols (cfgAlpha (readCfg s)) n a b c).length = n.toNat + 1 ∧
    ∃ r, exec (.enc n a b c) s = .next (respond r s) ∧
      (rspCnt r).toNat = if cfgPen (readCfg s) then 4 else n.toNat + 1

/-- R96: the response of ENC depends only on the command word and on CODEC_CFG, and ENC keeps no
state. -/
def Obligations.EncKeepsNoState : Prop :=
  ∀ (n : BitVec 3) (a b c : Byte) (s s' : State), 1 ≤ n.toNat → n.toNat ≤ 3 →
    readCfg s = readCfg s' →
    ∃ r, exec (.enc n a b c) s = .next (respond r s) ∧
      exec (.enc n a b c) s' = .next (respond r s')

/-- R69: bits at positions at or above CNT are ignored, in ENC and in DEC: any value is legal and none
changes the result; bits 31:24 of an ENC word are not ignored but reserved: a word with one of them
set decodes to no command, and that is the cause where CNT is in range, the only one there is. -/
def Obligations.AbsentPositionsAreIgnored : Prop :=
  (∀ (n : BitVec 3) (a b c a' b' c' : Byte) (s : State), 1 ≤ n.toNat → n.toNat ≤ 3 →
    (0 < n.toNat → a = a') → (1 < n.toNat → b = b') → (2 < n.toNat → c = c') →
    decode (encode (.enc n a' b' c')) = .ok (.enc n a' b' c') ∧
      exec (.enc n a b c) s = exec (.enc n a' b' c') s) ∧
  (∀ (n : BitVec 3) (w x y z w' x' y' z' : Symbol) (s : State), 1 ≤ n.toNat → n.toNat ≤ 4 →
    (0 < n.toNat → w = w') → (1 < n.toNat → x = x') → (2 < n.toNat → y = y') →
    (3 < n.toNat → z = z') →
    decode (encode (.dec n w' x' y' z')) = .ok (.dec n w' x' y' z') ∧
      exec (.dec n w x y z) s = exec (.dec n w' x' y' z') s) ∧
  (∀ C : CmdWord, opcOf C = 0x10#8 → C.extractLsb' 24 8 ≠ 0#8 →
    (∃ why, decode C = .error why) ∧
      (1 ≤ (cntOf C).toNat → (cntOf C).toNat ≤ 3 → decode C = .error .reservedBitSet))

/-! ## DEC -/

/-- R100: DEC of a group of `n` present symbols completes; with `r_i` the value of a present symbol
of the alphabet, no byte is emitted if `r_0` or `r_1` is missing, else byte1, byte2 if `r_2` is
there, byte3 if `r_3` is there, a missing value being 0. The bytes are written here as sums of the
values. `CNT` outside 1..4 or a reserved bit set makes the word ILLEGAL. -/
def Obligations.DecRespondsTheGroupsBytes : Prop :=
  (∀ (n : BitVec 3) (w x y z : Symbol) (s : State), 1 ≤ n.toNat → n.toNat ≤ 4 → ∃ r,
    exec (.dec n w x y z) s = .next (respond r s) ∧
    ∃ (r0 r1 r2 r3 : Option Sextet) (out : List Byte),
      r0 = decLut (cfgAlpha (readCfg s)) w ∧
      r1 = (if 2 ≤ n.toNat then decLut (cfgAlpha (readCfg s)) x else none) ∧
      r2 = (if 3 ≤ n.toNat then decLut (cfgAlpha (readCfg s)) y else none) ∧
      r3 = (if n.toNat = 4 then decLut (cfgAlpha (readCfg s)) z else none) ∧
      ((r0 = none ∨ r1 = none) → out = []) ∧
      (∀ a b, r0 = some a → r1 = some b →
        out = [BitVec.ofNat 8 (a.toNat * 4 + b.toNat / 16)] ++
          (if r2.isSome then [BitVec.ofNat 8 (b.toNat % 16 * 16 + (r2.getD 0#6).toNat / 4)] else []) ++
          (if r3.isSome then [BitVec.ofNat 8 ((r2.getD 0#6).toNat % 4 * 64 + (r3.getD 0#6).toNat)]
            else [])) ∧
      rspOpc r = 0x20#8 ∧ rspSt r = 0#4 ∧ rspBit51 r = false ∧ (rspCnt r).toNat = out.length ∧
      r.extractLsb' 24 24 = 0#24 ∧ ∀ p < 3, fieldByte 3 p r = out.getD p 0x00#8) ∧
  (∀ (C : CmdWord) (s : State), opcOf C = 0x20#8 →
    (C &&& 0x00F8FFFF00000000#64 ≠ 0#64 ∨ ¬(1 ≤ (cntOf C).toNat ∧ (cntOf C).toNat ≤ 4)) →
    executeWord C s = .next (respond (illegalResponse 0x20#8) s))

/-- R103: the bytes of the regrouper are the source's expressions, that is the bytes of the 24-bit
concatenation of the four values, an unresolved position's value being 0 in them whether or not
its byte is emitted. -/
def Obligations.DecRegrouperIsTheConcatenation : Prop :=
  (∀ (al : Alphabet) (n : BitVec 3) (i : Nat) (x : Symbol),
    (decLane al n i x).present = false → (decLane al n i x).value = 0#6) ∧
  (∀ r0 r1 r2 r3 : Lane 6, ∀ x ∈ decEmit r0 r1 r2 r3,
    x = decByte1 r0.value r1.value ∨ x = decByte2 r1.value r2.value ∨
      x = decByte3 r2.value r3.value) ∧
  ∀ a b c d : Sextet, ∃ H : BitVec 24, H = a ++ b ++ c ++ d ∧
    decByte1 a b = H.extractLsb' 16 8 ∧ decByte2 b c = H.extractLsb' 8 8 ∧
    decByte3 c d = H.extractLsb' 0 8 ∧
    decByte1 a b = (a.setWidth 8 <<< 2) ||| (b.setWidth 8 >>> 4) ∧
    decByte2 b c = ((b.setWidth 8 &&& 15#8) <<< 4) ||| (c.setWidth 8 >>> 2) ∧
    decByte3 c d = ((c.setWidth 8 &&& 3#8) <<< 6) ||| d.setWidth 8

/-- R102, R135: DEC never reports malformed input; a group that cannot resolve its first two symbols,
`n` = 1 among them, is dropped, with status OK and CNT = 0. The count is one a DEC word can carry
(R68). -/
def Obligations.DecDropsUnresolvableGroupsSilently : Prop :=
  (∀ (n : BitVec 3) (w x y z : Symbol) (s : State), 1 ≤ n.toNat → n.toNat ≤ 4 →
    ∃ r, exec (.dec n w x y z) s = .next (respond r s) ∧ rspSt r = 0#4) ∧
  (∀ (n : BitVec 3) (w x y z : Symbol) (s : State), 1 ≤ n.toNat → n.toNat ≤ 4 →
    decLut (cfgAlpha (readCfg s)) w = none ∨ decLut (cfgAlpha (readCfg s)) x = none ∨ n.toNat = 1 →
    ∃ r, exec (.dec n w x y z) s = .next (respond r s) ∧ r = 0x2000000000000000#64)

/-- R105 with decision D14 (log 8): a group whose third symbol is unresolved and whose fourth is
resolved emits byte1 and byte3, computed with 0 for the third value. -/
def Obligations.DecSkipsOnlyTheUnresolvedThirdByte : Prop :=
  ∀ (w x y z : Symbol) (s : State) (a b d : Sextet),
    decLut (cfgAlpha (readCfg s)) w = some a → decLut (cfgAlpha (readCfg s)) x = some b →
    decLut (cfgAlpha (readCfg s)) y = none → decLut (cfgAlpha (readCfg s)) z = some d →
    ∃ r, exec (.dec 4#3 w x y z) s = .next (respond r s) ∧ rspCnt r = 2#3 ∧
      fieldByte 3 0 r = decByte1 a b ∧ fieldByte 3 1 r = d.setWidth 8 ∧ fieldByte 3 2 r = 0#8

/-- R32: the decoder reads neither PEN nor PADC, and the padding symbol `=` is unresolved in both
alphabets like any byte outside them. -/
def Obligations.DecDoesNotReadThePadding : Prop :=
  (∀ (n : BitVec 3) (w x y z : Symbol) (s s' : State), 1 ≤ n.toNat → n.toNat ≤ 4 →
    cfgAlpha (readCfg s) = cfgAlpha (readCfg s') →
    ∃ r, exec (.dec n w x y z) s = .next (respond r s) ∧
      exec (.dec n w x y z) s' = .next (respond r s')) ∧
  (∀ (al : Alphabet) (x : Symbol), (∀ v, encLut al v ≠ x) → decLut al x = none) ∧
  (∀ al : Alphabet, decLut al 0x3D#8 = none)

/-! ## CFG and RDCFG -/

/-- R115: CFG completes, writes all fields of CODEC_CFG at once, responds OK and changes nothing
else; a reserved bit set makes the word ILLEGAL and leaves CODEC_CFG unchanged. -/
def Obligations.CfgWritesTheWholeConfiguration : Prop :=
  (∀ (padc : Symbol) (pen : Bool) (alpha : Alphabet) (s : State), ∃ t,
    exec (.cfg padc pen alpha) s = .next t ∧
    cfgPadc (readCfg t) = padc ∧ cfgPen (readCfg t) = pen ∧ cfgAlpha (readCfg t) = alpha ∧
    (readCfg t).extractLsb' 2 6 = 0#6 ∧
    t.rspq = s.rspq ++ [⟨0x3000000000000000#64, 0⟩] ∧
    t.rspRaised = s.rspRaised ∧ t.cmdOffer = s.cmdOffer ∧ t.edges = s.edges ∧
    t.accepted = s.accepted ∧ t.delivered = s.delivered) ∧
  (∀ (C : CmdWord) (s : State), opcOf C = 0x30#8 → C &&& 0x00FFFFFFFFFF00FC#64 ≠ 0#64 →
    ∃ t, executeWord C s = .next t ∧ t.codecCfg = s.codecCfg ∧
      t.rspq = s.rspq ++ [⟨illegalResponse 0x30#8, 0⟩])

/-- R116: RDCFG completes and responds the 16-bit image, whose bits 7:2 are always 0 and which is
0x3D02 after reset; any of bits 55:0 set makes the word ILLEGAL. -/
def Obligations.RdcfgRespondsTheConfiguration : Prop :=
  (∀ s : State, ∃ r, exec .rdcfg s = .next (respond r s) ∧
    rspOpc r = 0x31#8 ∧ rspSt r = 0#4 ∧ rspBit51 r = false ∧ rspCnt r = 0#3 ∧
    rspPayload r = (readCfg s).setWidth 48 ∧ (rspPayload r).extractLsb' 2 6 = 0#6 ∧
    (s = State.reset → r = 0x3100000000003D02#64)) ∧
  (∀ (C : CmdWord) (s : State), opcOf C = 0x31#8 → C &&& 0x00FFFFFFFFFFFFFF#64 ≠ 0#64 →
    executeWord C s = .next (respond (illegalResponse 0x31#8) s))

/-- A CFG is seen by the very next command, and sending it twice leaves the same CODEC_CFG as
sending it once (20_memory.md R48, R50; 43_config.md "Corner cases" of R115). -/
def Obligations.CfgIsReadBackAndIdempotent : Prop :=
  ∀ (padc : Symbol) (pen : Bool) (alpha : Alphabet) (s : State), ∃ t u,
    runWords [encode (.cfg padc pen alpha), encode .rdcfg] s = .next t ∧
    runWords [encode (.cfg padc pen alpha), encode (.cfg padc pen alpha), encode .rdcfg] s =
      .next u ∧
    answers [encode (.cfg padc pen alpha), encode .rdcfg] s =
      [0x3000000000000000#64, 0x31#8 ++ 0#40 ++ cfgImage padc pen alpha] ∧
    t.codecCfg = u.codecCfg

/-- "Each command reads `CODEC_CFG` as left by the last CFG accepted before it" (20_memory.md R50):
after any words, CODEC_CFG is the image of the last CFG among them, or what it was. -/
def Obligations.LastCfgGoverns : Prop :=
  ∀ (ws : List CmdWord) (s : State), ∃ t, runWords ws s = .next t ∧
    readCfg t = ws.foldl (fun g w =>
      match decode w with
      | .ok (.cfg padc pen alpha) => cfgImage padc pen alpha
      | _ => g) (readCfg s)

/-! ## Illegal words and the step -/

/-- R131: at an edge where the host's word transfers and encodes no command, the step goes on to a
next state: no state changes but what the ports do, and the response is OPC, ST = 1, all other bits
0. -/
def Obligations.IllegalWordChangesNoStateAndResponds : Prop :=
  ∀ (s : State) (e : Edge) (rest : List Edge) (why : IllegalCause),
    s.edges = e :: rest → e.rst = false → brokenDuty e s = none →
    e.cmdValid = true → cmdReady e s = true → decode e.cmdData = .error why →
    ∃ t, step s = .next t ∧ t.codecCfg = s.codecCfg ∧ t.edges = rest ∧
      ∃ q : List Queued, t.rspq = q ++ [⟨opcOf e.cmdData ++ 0x1#4 ++ 0#52, 0⟩] ∧
        q = (portActions e { s with edges := rest }).rspq

/-- A step runs the decoded command: when the word that transfers at the next edge decodes to `i`,
the step is `exec i` at the state the ports leave, with the word recorded as accepted (20_memory.md
R42, R53; 30_encoding.md R73). -/
def Obligations.StepExecutesTheDecodedCommand : Prop :=
  ∀ (s : State) (e : Edge) (rest : List Edge) (i : Instr),
    s.edges = e :: rest → e.rst = false → brokenDuty e s = none →
    e.cmdValid = true → cmdReady e s = true → decode e.cmdData = .ok i →
    step s = exec i (noteAccepted e.cmdData (portActions e { s with edges := rest }))

/-- The word `withFetchWord` places runs at the very next step, from every state, reset included
(log 1). -/
def Obligations.PlacedWordRunsAtTheNextStep : Prop :=
  ∀ (s : State) (w : Nat) (i : Instr), decodeTableWord 64 w = some i →
    (s.withFetchWord 64 w).codecCfg = s.codecCfg ∧
    ∃ u t, step (s.withFetchWord 64 w) = exec i u ∧ exec i u = .next t ∧
      u.codecCfg = s.codecCfg ∧ u.accepted = s.accepted ++ [tableWord 64 w] ∧
      u.edges = s.edges ∧ (queuedWords u = queuedWords s ∨ queuedWords u = [])

/-- A step of the machine goes on, whatever the state, unless the host breaks its stability duty;
there is no fault (20_memory.md R43, 60_exceptions.md R130). -/
def Obligations.StepGoesOnUnlessTheHostBreaksItsDuty : Prop :=
  ∀ s : State, (∃ t, step s = .next t) ∨
    ∃ (e : Edge) (rest : List Edge) (w : CmdWord),
      s.edges = e :: rest ∧ e.rst = false ∧ s.cmdOffer = some w ∧
        ((e.cmdValid = false ∧ step s = .refused .hostDroppedOffer) ∨
          (e.cmdValid = true ∧ e.cmdData ≠ w ∧ step s = .refused .hostChangedOffer))

/-! ## Ports, reset -/

/-- R42: a command transfers exactly where `rst` = 0, `cmd_valid` = 1 and `cmd_ready` = 1, and is
then accepted; a response transfers exactly where `rst` = 0, `rsp_valid` = 1 and `rsp_ready` = 1, is
the head of RSPQ and is removed; `rsp_valid` = 1 only while RSPQ is not empty and at least LAT
cycles after the head's command was accepted (the coming edge is `age + 1` cycles after it, log 6),
and is otherwise free. -/
def Obligations.TransfersFollowTheHandshake : Prop :=
  (∀ (e : Edge) (s t : State), clockEdge e s = .next t → e.rst = false →
    ∃ new : List RspWord,
      (e.cmdValid = true ∧ cmdReady e s = true →
        t.accepted = s.accepted ++ [e.cmdData] ∧ new.length = 1) ∧
      (¬(e.cmdValid = true ∧ cmdReady e s = true) → t.accepted = s.accepted ∧ new = []) ∧
      (rspValid e s = true ∧ e.rspReady = true →
        ∃ q rest, s.rspq = q :: rest ∧ rspData s = some q.word ∧
          t.delivered = s.delivered ++ [q.word] ∧ queuedWords t = rest.map Queued.word ++ new) ∧
      (¬(rspValid e s = true ∧ e.rspReady = true) →
        t.delivered = s.delivered ∧ queuedWords t = queuedWords s ++ new)) ∧
  (∀ (e : Edge) (s : State), rspValid e s = true →
    ∃ q rest, s.rspq = q :: rest ∧ Config.lat ≤ q.age + 1) ∧
  (∀ (e : Edge) (s : State) (b : Bool), e.rst = false → headDue s = true → s.rspRaised = false →
    rspValid { e with validChoice := b } s = b)

/-- R43: a host that drops or changes its offer before it transfers is refused; the block keeps
`rsp_valid` and `rsp_data` once raised, until the transfer; and `rsp_valid` does not wait for
`rsp_ready`. -/
def Obligations.OffersStayStableUntilTheyTransfer : Prop :=
  (∀ (s : State) (e : Edge) (rest : List Edge) (w : CmdWord),
    s.edges = e :: rest → e.rst = false → s.cmdOffer = some w →
    (e.cmdValid = false → step s = .refused .hostDroppedOffer) ∧
      (e.cmdValid = true → e.cmdData ≠ w → step s = .refused .hostChangedOffer)) ∧
  (∀ (e e' : Edge) (s t : State), clockEdge e s = .next t → rspValid e s = true →
    e.rspReady = false → e'.rst = false → rspValid e' t = true ∧ rspData t = rspData s) ∧
  (∀ (e : Edge) (s : State) (b : Bool), rspValid { e with rspReady := b } s = rspValid e s) ∧
  (∀ (e : Edge) (s t : State), clockEdge e s = .next t → e.rst = false → e.cmdValid = true →
    cmdReady e s = false → t.cmdOffer = some e.cmdData)

/-- R54: `cmd_ready` = 0 whenever RSPQ holds DEPTH responses; otherwise, outside reset, it is free on
every cycle. -/
def Obligations.BackPressureWhenTheQueueIsFull : Prop :=
  (∀ (e : Edge) (s : State), Config.depth ≤ s.rspq.length → cmdReady e s = false) ∧
  (∀ (e : Edge) (s : State) (b : Bool), e.rst = false → s.rspq.length < Config.depth →
    cmdReady { e with readyChoice := b } s = b)

/-- R151: at each edge with `rst` = 1, from any state, CODEC_CFG becomes 0x3D02 and RSPQ empty, the
responses not yet delivered being lost. -/
def Obligations.ResetEdgeGivesTheResetState : Prop :=
  ∀ (s : State) (e : Edge) (rest : List Edge), s.edges = e :: rest → e.rst = true →
    ∃ t, step s = .next t ∧
      t.codecCfg = 0x3D02#16 ∧ cfgAlpha (readCfg t) = .standard ∧ cfgPen (readCfg t) = true ∧
      cfgPadc (readCfg t) = 0x3D#8 ∧ t.codecCfg.extractLsb' 2 6 = 0#6 ∧ t.rspq = []

/-- 70_reset_and_hazards.md R153, on the model's own fields: an edge with `rst` = 1 gives the model's
reset state, from any state: the session's records are empty (log 7) and no offer is held (log 5),
so that a session begins there; the edges still to come are the host's. -/
def Obligations.ResetEdgeBeginsANewSession : Prop :=
  ∀ (s : State) (e : Edge) (rest : List Edge), s.edges = e :: rest → e.rst = true →
    step s = .next { State.reset with edges := rest }

/-- R152: while `rst` = 1 the block holds `cmd_ready` = 0 and `rsp_valid` = 0, no command or response
transfers, and a command offered there is not accepted: no response is queued for it. -/
def Obligations.NothingTransfersDuringReset : Prop :=
  ∀ (e : Edge) (s : State), e.rst = true →
    cmdReady e s = false ∧ rspValid e s = false ∧ cmdTransfers e s = false ∧
    rspTransfers e s = false ∧ ∃ t, clockEdge e s = .next t ∧ queuedWords t = []

/-- 60_exceptions.md R145: an edge at which nothing transfers keeps CODEC_CFG and RSPQ; and where no
edge is listed the step changes nothing (log 1). -/
def Obligations.IdleEdgeKeepsConfigurationAndQueue : Prop :=
  (∀ (e : Edge) (s : State), e.rst = false → brokenDuty e s = none → cmdTransfers e s = false →
    rspTransfers e s = false → ∃ t, clockEdge e s = .next t ∧ t.codecCfg = s.codecCfg ∧
      queuedWords t = queuedWords s ∧ t.accepted = s.accepted ∧ t.delivered = s.delivered) ∧
  (∀ s : State, s.edges = [] → step s = .next s)

/-- 20_memory.md R42 over many edges (log 6): a response queued at some edge is not delivered at any
of the `LAT - 1` edges after it, whatever is queued before it. -/
def Obligations.NoResponseIsDeliveredBeforeLat : Prop :=
  ∀ (es : List Edge) (s t : State) (before : List Queued) (r : RspWord),
    (∀ e ∈ es, e.rst = false) → s.rspq = before ++ [⟨r, 0⟩] → es.length < Config.lat →
    runEdges es s = .next t → t.delivered.length ≤ s.delivered.length + before.length

/-! ## Invariants -/

/-- The invariants hold at reset. -/
def Obligations.ResetMeetsTheInvariant : Prop := State.reset.Inv

/-- 10_state.md R27: bits 7:2 of CODEC_CFG stay 0. -/
def Obligations.StepKeepsReservedConfigurationBitsZero : Prop :=
  ∀ s t : State, s.CfgReservedZero → step s = .next t → t.CfgReservedZero

/-- 10_state.md R35: RSPQ stays at most DEPTH long. -/
def Obligations.StepKeepsTheQueueBounded : Prop :=
  ∀ s t : State, s.QueueBounded → step s = .next t → t.QueueBounded

/-- 20_memory.md R42, R43: `rsp_valid` stays remembered as raised only for a head that may be
presented. -/
def Obligations.StepKeepsRaisedResponsesDue : Prop :=
  ∀ s t : State, s.RaisedIsDue → step s = .next t → t.RaisedIsDue

/-- 30_encoding.md R71, 60_exceptions.md R132: every response queued or delivered stays a legal
one. -/
def Obligations.StepKeepsResponsesLegal : Prop :=
  ∀ s t : State, s.ResponsesLegal → step s = .next t → t.ResponsesLegal

/-- 20_memory.md R50 and R53 as an invariant: at every step the responses delivered and queued are,
in order, those of the accepted commands executed one at a time from reset. -/
def Obligations.StepKeepsAcceptanceOrder : Prop :=
  ∀ s t : State, s.InOrder → step s = .next t → t.InOrder

/-- 20_memory.md R50, R53, R57: whatever the host and the block's free choices do, a run of the
clocked machine from reset ends in the state and responses of the transaction-level machine; when
the session has ended, the delivered responses are exactly those of the accepted commands. -/
def Obligations.PortRunsAreTransactionRuns : Prop :=
  ∀ (es : List Edge) (k : Nat) (t : State),
    core.run k { State.reset with edges := es } = .next t →
    ∃ u, runWords t.accepted State.reset = .next u ∧ readCfg t = readCfg u ∧
      t.delivered <+: answers t.accepted State.reset ∧
      (sessionEnded t = true →
        sessionResult t = (readCfg u, answers t.accepted State.reset))

/-! ## Whole messages -/

/-- 41_encode.md R97 (derived): the text of a message sent in groups is the source's encoding of the
message. -/
def Obligations.EncodedMessageIsTheSourcesText : Prop :=
  ∀ (m : List Byte) (s : State),
    encodeMessage m s = bjsEncode (cfgAlpha (readCfg s)) (cfgPad (readCfg s)) m

/-- 40_length.md R82, 41_encode.md R97 (derived): the text's length is ELEN of the message's length
and PEN. -/
def Obligations.EncodedMessageHasTheElenLength : Prop :=
  ∀ (m : List Byte) (s : State),
    (encodeMessage m s).length = elenResult (cfgPen (readCfg s)) m.length

/-- 41_encode.md R97, 70_reset_and_hazards.md R156 (derived): a message sent in two pieces, each with
its own last group, gives the two pieces' texts, not the text of the whole. -/
def Obligations.PiecewiseEncodingConcatenates : Prop :=
  ∀ (m m' : List Byte) (s : State),
    (answers ((encGroups m ++ encGroups m').map encode) s).flatMap encPayload =
      encodeMessage m s ++ encodeMessage m' s

/-- 42_decode.md R108 (derived): the bytes of a text sent in groups are the source's decoding of the
text. -/
def Obligations.DecodedTextIsTheSourcesBytes : Prop :=
  ∀ (t : List Symbol) (s : State), decodeMessage t s = bjsDecode (cfgAlpha (readCfg s)) t

/-- 42_decode.md R108 (derived): splitting a text at a multiple of 4 symbols and decoding the pieces
gives the same bytes. -/
def Obligations.DecodingSplitsAtMultiplesOfFour : Prop :=
  ∀ (t t' : List Symbol) (s : State), t.length % 4 = 0 →
    decodeMessage (t ++ t') s = decodeMessage t s ++ decodeMessage t' s

/-- 42_decode.md R109 (derived): symbols outside the alphabet after a text whose length is a multiple
of 4 leave the decoded bytes unchanged. -/
def Obligations.ExcessPaddingIsTolerated : Prop :=
  ∀ (t excess : List Symbol) (s : State), t.length % 4 = 0 →
    (∀ x ∈ excess, decLut (cfgAlpha (readCfg s)) x = none) →
    decodeMessage (t ++ excess) s = decodeMessage t s

/-- 42_decode.md R110 (derived): decoding the text of a message gives the message back, for both
alphabets, with and without padding, unless the padding symbol is one of the alphabet. -/
def Obligations.DecodingUndoesEncoding : Prop :=
  ∀ (m : List Byte) (s : State),
    (cfgPen (readCfg s) = true → decLut (cfgAlpha (readCfg s)) (cfgPadc (readCfg s)) = none) →
    decodeMessage (encodeMessage m s) s = m

/-- 42_decode.md R111 (derived): the padded and the unpadded text of a message decode to the same
bytes, in any state with that alphabet. -/
def Obligations.PaddingIsCosmeticForDecoding : Prop :=
  ∀ (m : List Byte) (s s' u : State),
    cfgAlpha (readCfg s) = cfgAlpha (readCfg s') → cfgAlpha (readCfg s) = cfgAlpha (readCfg u) →
    cfgPen (readCfg s) = true → cfgPen (readCfg s') = false →
    decLut (cfgAlpha (readCfg s)) (cfgPadc (readCfg s)) = none →
    decodeMessage (encodeMessage m s) u = decodeMessage (encodeMessage m s') u

/-- 40_length.md R83 (derived): the bytes of a text never exceed DLEN of its length, and equal it
exactly when every group emits 3 bytes. -/
def Obligations.DecodedTextFitsTheDlenCapacity : Prop :=
  ∀ (t : List Symbol) (s : State),
    (decodeMessage t s).length ≤ dlenResult t.length ∧
      ((decodeMessage t s).length = dlenResult t.length ↔
        ∀ r ∈ answers ((decGroups t).map encode) s, rspCnt r = 3#3)

/-- 43_config.md R118 to R122: each entry point, from any state, gives the source's encoding or
decoding with its own alphabet and padding; a padding argument longer than one symbol is refused. -/
def Obligations.EntryPointsGiveTheSourcesResults : Prop :=
  (∀ (m : List Byte) (padding : List Symbol) (s : State), padding.length ≤ 1 →
    (∃ cmds, entryEncode m padding = .ok cmds ∧
      entryText cmds s = bjsEncode .standard padding.head? m) ∧
    (∃ cmds, entryUrlEncode m padding = .ok cmds ∧
      entryText cmds s = bjsEncode .urlSafe padding.head? m) ∧
    (∃ cmds, entryDecode m padding = .ok cmds ∧ entryBytes cmds s = bjsDecode .standard m) ∧
    (∃ cmds, entryUrlDecode m padding = .ok cmds ∧ entryBytes cmds s = bjsDecode .urlSafe m)) ∧
  (∀ (m : List Byte) (padding : List Symbol), 2 ≤ padding.length →
    entryEncode m padding = .error .paddingTooLong ∧
    entryUrlEncode m padding = .error .paddingTooLong ∧
    entryDecode m padding = .error .paddingTooLong ∧
    entryUrlDecode m padding = .error .paddingTooLong)

/-! ## Liveness -/

/-- 20_memory.md R55, first sentence (log 10): with fair choices, if the host holds `rsp_ready` = 1
and keeps its duty, every response in RSPQ is eventually delivered, in order. -/
def Obligations.QueuedResponsesAreEventuallyDelivered : Prop :=
  ∀ (E : Nat → Edge) (s : State), FairChoices E →
    (∀ n, (E n).rst = false ∧ (E n).rspReady = true) →
    (∀ n, ∃ t, afterEdges E n s = .next t) →
    ∃ n t, afterEdges E n s = .next t ∧ s.delivered ++ queuedWords s <+: t.delivered

/-- 20_memory.md R55, second clause (log 10): if in addition the host holds `cmd_valid` = 1 with a
command, that command is eventually accepted. -/
def Obligations.OfferedCommandIsEventuallyAccepted : Prop :=
  ∀ (E : Nat → Edge) (s : State) (w : CmdWord), FairChoices E →
    (∀ n, (E n).rst = false ∧ (E n).rspReady = true ∧ (E n).cmdValid = true ∧
      (E n).cmdData = w) →
    (s.cmdOffer = none ∨ s.cmdOffer = some w) →
    ∃ n t, afterEdges E n s = .next t ∧ s.accepted ++ [w] <+: t.accepted

/-- 70_reset_and_hazards.md R158 (derived): while RSPQ is full, a host that takes no response has no
command accepted, at any of any number of edges. -/
def Obligations.FullQueueBlocksAHostThatTakesNothing : Prop :=
  ∀ (es : List Edge) (s t : State), Config.depth ≤ s.rspq.length →
    (∀ e ∈ es, e.rst = false ∧ e.rspReady = false) → runEdges es s = .next t →
    t.accepted = s.accepted ∧ t.delivered = s.delivered ∧ queuedWords t = queuedWords s
end

