-- ==== Sys2Proof/Laws/Bits.lean ====
section
/-! SUPPORT. Concatenation, field extraction and masking as arithmetic on numbers, the bridge every
proof about a field of a word crosses. -/

namespace Sys2Proof

/-- `{x, y}` as a number: the high part counts from bit `n` (00_scope.md R8). -/
theorem toNat_append_eq_add {m n : Nat} (x : BitVec m) (y : BitVec n) :
    (x ++ y).toNat = x.toNat * 2 ^ n + y.toNat := by
  rw [BitVec.toNat_append, ← Nat.shiftLeft_add_eq_or_of_lt y.isLt, Nat.shiftLeft_eq]

/-- A field as a number: a quotient and a remainder. -/
theorem toNat_extractLsb'_eq {w : Nat} (x : BitVec w) (i n : Nat) :
    (x.extractLsb' i n).toNat = x.toNat / 2 ^ i % 2 ^ n := by
  rw [BitVec.extractLsb'_toNat, Nat.shiftRight_eq_div_pow]

/-- A field's value, asked as an equation on numbers. -/
theorem extractLsb'_eq_iff {w : Nat} (x : BitVec w) (i n : Nat) (v : BitVec n) :
    x.extractLsb' i n = v ↔ x.toNat / 2 ^ i % 2 ^ n = v.toNat := by
  rw [← toNat_extractLsb'_eq, BitVec.toNat_inj]

/-- A bit as a number. -/
theorem getLsbD_eq_decide {w : Nat} (x : BitVec w) (i : Nat) :
    x.getLsbD i = decide (x.toNat / 2 ^ i % 2 = 1) := by
  rw [← BitVec.testBit_toNat, Nat.testBit_eq_decide_div_mod_eq]

/-- A bit as 0 or 1. -/
theorem toNat_getLsbD {w : Nat} (x : BitVec w) (i : Nat) :
    (x.getLsbD i).toNat = x.toNat / 2 ^ i % 2 := by
  rw [getLsbD_eq_decide]
  rcases Nat.mod_two_eq_zero_or_one (x.toNat / 2 ^ i) with h | h <;> rw [h] <;> rfl

theorem toNat_ofBool (b : Bool) : (BitVec.ofBool b).toNat = b.toNat := by cases b <;> rfl

/-- A field that lies in the low part of a concatenation. -/
theorem extractLsb'_append_low {m n : Nat} (x : BitVec m) (y : BitVec n) (i k : Nat)
    (h : i + k ≤ n) : (x ++ y).extractLsb' i k = y.extractLsb' i k := by
  apply BitVec.eq_of_toNat_eq
  rw [toNat_extractLsb'_eq, toNat_extractLsb'_eq, toNat_append_eq_add]
  obtain ⟨j, rfl⟩ : ∃ j, n = i + (k + j) := ⟨n - i - k, by omega⟩
  rw [pow_add, pow_add,
    show x.toNat * (2 ^ i * (2 ^ k * 2 ^ j)) + y.toNat =
      y.toNat + 2 ^ i * (2 ^ k * (x.toNat * 2 ^ j)) by ring,
    Nat.add_mul_div_left _ _ (Nat.two_pow_pos i), Nat.add_mul_mod_self_left]

/-- Masking splits at any bit. -/
theorem and_mul_two_pow_add (x a b k : Nat) (hb : b < 2 ^ k) :
    x &&& (a * 2 ^ k + b) = (x / 2 ^ k &&& a) * 2 ^ k + (x % 2 ^ k &&& b) := by
  have hlt : (x % 2 ^ k &&& b) < 2 ^ k := lt_of_le_of_lt Nat.and_le_right hb
  have h1 : a * 2 ^ k + b = a <<< k ||| b := by
    rw [← Nat.shiftLeft_add_eq_or_of_lt hb, Nat.shiftLeft_eq]
  have h2 : (x / 2 ^ k &&& a) * 2 ^ k + (x % 2 ^ k &&& b) =
      (x / 2 ^ k &&& a) <<< k ||| (x % 2 ^ k &&& b) := by
    rw [← Nat.shiftLeft_add_eq_or_of_lt hlt, Nat.shiftLeft_eq]
  rw [h1, h2]
  apply Nat.eq_of_testBit_eq
  intro i
  simp only [Nat.testBit_and, Nat.testBit_or, Nat.testBit_shiftLeft, Nat.testBit_div_two_pow,
    Nat.testBit_mod_two_pow]
  by_cases hi : k ≤ i
  · have hbi : b.testBit i = false :=
      Nat.testBit_lt_two_pow (lt_of_lt_of_le hb (Nat.pow_le_pow_right (by norm_num) hi))
    simp [hi, hbi, Nat.not_lt.mpr hi, Nat.sub_add_cancel hi]
  · have : i < k := by omega
    simp [hi, this]

/-- A mask of `m` ones from bit `i` keeps one field in place. -/
theorem and_field_mask (x i m : Nat) : x &&& ((2 ^ m - 1) * 2 ^ i) = x / 2 ^ i % 2 ^ m * 2 ^ i := by
  have h := and_mul_two_pow_add x (2 ^ m - 1) 0 i (Nat.two_pow_pos i)
  rwa [Nat.and_two_pow_sub_one_eq_mod, Nat.add_zero, Nat.and_zero, Nat.add_zero] at h

/-- A mask of two fields keeps both in place. -/
theorem and_two_field_mask (x i m j n : Nat) (h : j + n ≤ i) :
    x &&& ((2 ^ m - 1) * 2 ^ i + (2 ^ n - 1) * 2 ^ j) =
      x / 2 ^ i % 2 ^ m * 2 ^ i + x / 2 ^ j % 2 ^ n * 2 ^ j := by
  have hb : (2 ^ n - 1) * 2 ^ j < 2 ^ i := by
    calc (2 ^ n - 1) * 2 ^ j < 2 ^ n * 2 ^ j :=
          Nat.mul_lt_mul_of_pos_right (by have := Nat.two_pow_pos n; omega) (Nat.two_pow_pos j)
      _ = 2 ^ (j + n) := by rw [← pow_add, Nat.add_comm]
      _ ≤ 2 ^ i := Nat.pow_le_pow_right (by norm_num) h
  rw [and_mul_two_pow_add x _ _ i hb, Nat.and_two_pow_sub_one_eq_mod, and_field_mask]
  congr 2
  obtain ⟨k, rfl⟩ : ∃ k, i = j + (n + k) := ⟨i - j - n, by omega⟩
  rw [pow_add 2 j, Nat.mod_mul_right_div_self, pow_add 2 n, Nat.mod_mul_right_mod]

end Sys2Proof
end

