-- ==== Sys2Proof/Laws/Decode.lean ====
section
/-! SUPPORT. The words of commands as numbers (30_encoding.md R61 to R64), and what the decoder can
answer, said once with the fields it tests as numbers (R73). -/

namespace Sys2Proof

@[simp] theorem alphabetOfBit_bit (al : Alphabet) : alphabetOfBit al.bit = al := by cases al <;> rfl

@[simp] theorem bit_alphabetOfBit (b : Bool) : (alphabetOfBit b).bit = b := by cases b <;> rfl

/-! ## Words as numbers -/

theorem encode_elen_toNat (p : Bool) (len : LenWord) :
    (encode (.elen p len)).toNat = 1 * 2 ^ 56 + p.toNat * 2 ^ 48 + len.toNat := by
  have h : (encode (.elen p len)).toNat =
    (0x01#8 ++ 0#7 ++ BitVec.ofBool p ++ 0#16 ++ len).toNat := rfl
  rw [h]
  simp only [toNat_append_eq_add, toNat_ofBool, BitVec.toNat_ofNat]
  omega

theorem encode_dlen_toNat (len : LenWord) :
    (encode (.dlen len)).toNat = 2 * 2 ^ 56 + len.toNat := by
  have h : (encode (.dlen len)).toNat = (0x02#8 ++ 0#24 ++ len).toNat := rfl
  rw [h]
  simp only [toNat_append_eq_add, BitVec.toNat_ofNat]
  omega

theorem encode_enc_toNat (n : BitVec 3) (a b c : Byte) :
    (encode (.enc n a b c)).toNat =
      16 * 2 ^ 56 + n.toNat * 2 ^ 48 + a.toNat * 2 ^ 16 + b.toNat * 2 ^ 8 + c.toNat := by
  have h : (encode (.enc n a b c)).toNat = (0x10#8 ++ 0#5 ++ n ++ 0#24 ++ a ++ b ++ c).toNat := rfl
  rw [h]
  simp only [toNat_append_eq_add, BitVec.toNat_ofNat]
  omega

theorem encode_dec_toNat (n : BitVec 3) (s t u v : Symbol) :
    (encode (.dec n s t u v)).toNat =
      32 * 2 ^ 56 + n.toNat * 2 ^ 48 + s.toNat * 2 ^ 24 + t.toNat * 2 ^ 16 + u.toNat * 2 ^ 8 +
        v.toNat := by
  have h : (encode (.dec n s t u v)).toNat =
    (0x20#8 ++ 0#5 ++ n ++ 0#16 ++ s ++ t ++ u ++ v).toNat := rfl
  rw [h]
  simp only [toNat_append_eq_add, BitVec.toNat_ofNat]
  omega

theorem cfgImage_toNat (padc : Symbol) (pen : Bool) (alpha : Alphabet) :
    (cfgImage padc pen alpha).toNat = padc.toNat * 256 + pen.toNat * 2 + alpha.bit.toNat := by
  have h : (cfgImage padc pen alpha).toNat =
    (padc ++ 0#6 ++ BitVec.ofBool pen ++ BitVec.ofBool alpha.bit).toNat := rfl
  rw [h]
  simp only [toNat_append_eq_add, toNat_ofBool, BitVec.toNat_ofNat]
  omega

theorem encode_cfg_toNat (padc : Symbol) (pen : Bool) (alpha : Alphabet) :
    (encode (.cfg padc pen alpha)).toNat =
      48 * 2 ^ 56 + padc.toNat * 256 + pen.toNat * 2 + alpha.bit.toNat := by
  have h : (encode (.cfg padc pen alpha)).toNat =
    (0x30#8 ++ 0#40 ++ cfgImage padc pen alpha).toNat := rfl
  rw [h]
  simp only [toNat_append_eq_add, cfgImage_toNat, BitVec.toNat_ofNat]
  omega

theorem encode_rdcfg_toNat : (encode .rdcfg).toNat = 49 * 2 ^ 56 := rfl

/-! ## What the decoder answers -/

theorem opcOf_eq_iff (C : CmdWord) (v : BitVec 8) : opcOf C = v ↔ C.toNat / 2 ^ 56 = v.toNat := by
  rw [opcOf, extractLsb'_eq_iff]
  have := C.isLt
  omega

theorem encCountOk_iff (n : BitVec 3) : encCountOk n = true ↔ 1 ≤ n.toNat ∧ n.toNat ≤ 3 := by
  simp [encCountOk]

theorem decCountOk_iff (n : BitVec 3) : decCountOk n = true ↔ 1 ≤ n.toNat ∧ n.toNat ≤ 4 := by
  simp [decCountOk]

/-- The answers of the decoder, each with the tests that lead to it. -/
inductive Decodes (C : CmdWord) : Except IllegalCause Instr → Prop
  | elen : C.toNat / 2 ^ 56 = 1 → C.toNat / 2 ^ 49 % 2 ^ 7 = 0 → C.toNat / 2 ^ 32 % 2 ^ 16 = 0 →
      Decodes C (.ok (.elen (padBitOf C) (lenOf C)))
  | dlen : C.toNat / 2 ^ 56 = 2 → C.toNat / 2 ^ 32 % 2 ^ 24 = 0 → Decodes C (.ok (.dlen (lenOf C)))
  | enc : C.toNat / 2 ^ 56 = 16 → C.toNat / 2 ^ 51 % 2 ^ 5 = 0 → C.toNat / 2 ^ 24 % 2 ^ 24 = 0 →
      encCountOk (cntOf C) = true →
      Decodes C (.ok (.enc (cntOf C) (encByteOf C 0) (encByteOf C 1) (encByteOf C 2)))
  | dec : C.toNat / 2 ^ 56 = 32 → C.toNat / 2 ^ 51 % 2 ^ 5 = 0 → C.toNat / 2 ^ 32 % 2 ^ 16 = 0 →
      decCountOk (cntOf C) = true →
      Decodes C (.ok (.dec (cntOf C) (decSymbolOf C 0) (decSymbolOf C 1) (decSymbolOf C 2)
        (decSymbolOf C 3)))
  | cfg : C.toNat / 2 ^ 56 = 48 → C.toNat / 2 ^ 16 % 2 ^ 40 = 0 → C.toNat / 2 ^ 2 % 2 ^ 6 = 0 →
      Decodes C (.ok (.cfg (padcOf C) (penOf C) (alphaOf C)))
  | rdcfg : C.toNat / 2 ^ 56 = 49 → C.toNat % 2 ^ 56 = 0 → Decodes C (.ok .rdcfg)
  | unassigned : (∀ k ∈ [1, 2, 16, 32, 48, 49], C.toNat / 2 ^ 56 ≠ k) →
      Decodes C (.error .unassignedOpcode)
  | elenReserved : C.toNat / 2 ^ 56 = 1 →
      ¬(C.toNat / 2 ^ 49 % 2 ^ 7 = 0 ∧ C.toNat / 2 ^ 32 % 2 ^ 16 = 0) →
      Decodes C (.error .reservedBitSet)
  | dlenReserved : C.toNat / 2 ^ 56 = 2 → ¬C.toNat / 2 ^ 32 % 2 ^ 24 = 0 →
      Decodes C (.error .reservedBitSet)
  | encReserved : C.toNat / 2 ^ 56 = 16 →
      ¬(C.toNat / 2 ^ 51 % 2 ^ 5 = 0 ∧ C.toNat / 2 ^ 24 % 2 ^ 24 = 0) →
      Decodes C (.error .reservedBitSet)
  | decReserved : C.toNat / 2 ^ 56 = 32 →
      ¬(C.toNat / 2 ^ 51 % 2 ^ 5 = 0 ∧ C.toNat / 2 ^ 32 % 2 ^ 16 = 0) →
      Decodes C (.error .reservedBitSet)
  | cfgReserved : C.toNat / 2 ^ 56 = 48 →
      ¬(C.toNat / 2 ^ 16 % 2 ^ 40 = 0 ∧ C.toNat / 2 ^ 2 % 2 ^ 6 = 0) →
      Decodes C (.error .reservedBitSet)
  | rdcfgReserved : C.toNat / 2 ^ 56 = 49 → ¬C.toNat % 2 ^ 56 = 0 →
      Decodes C (.error .reservedBitSet)
  | encCount : C.toNat / 2 ^ 56 = 16 → C.toNat / 2 ^ 51 % 2 ^ 5 = 0 →
      C.toNat / 2 ^ 24 % 2 ^ 24 = 0 → encCountOk (cntOf C) = false →
      Decodes C (.error .countOutOfRange)
  | decCount : C.toNat / 2 ^ 56 = 32 → C.toNat / 2 ^ 51 % 2 ^ 5 = 0 →
      C.toNat / 2 ^ 32 % 2 ^ 16 = 0 → decCountOk (cntOf C) = false →
      Decodes C (.error .countOutOfRange)

/-- `cases decode_cases C` gives every answer of the decoder with its tests. -/
theorem decode_cases (C : CmdWord) : Decodes C (decode C) := by
  unfold decode
  simp only [opcOf_eq_iff, decodeElen, decodeDlen, decodeEnc, decodeDec, decodeCfg, decodeRdcfg,
    extractLsb'_eq_iff, BitVec.toNat_ofNat]
  norm_num only
  split
  · split
    · exact .elen ‹_› (by omega) (by omega)
    · exact .elenReserved ‹_› (by omega)
  split
  · split
    · exact .dlen ‹_› (by omega)
    · exact .dlenReserved ‹_› (by omega)
  split
  · split
    · split
      · exact .enc ‹_› (by omega) (by omega) ‹_›
      · rename_i h
        exact .encCount ‹_› (by omega) (by omega) (by simpa using h)
    · exact .encReserved ‹_› (by omega)
  split
  · split
    · split
      · exact .dec ‹_› (by omega) (by omega) ‹_›
      · rename_i h
        exact .decCount ‹_› (by omega) (by omega) (by simpa using h)
    · exact .decReserved ‹_› (by omega)
  split
  · split
    · exact .cfg ‹_› (by omega) (by omega)
    · exact .cfgReserved ‹_› (by omega)
  split
  · split
    · exact .rdcfg ‹_› (by omega)
    · exact .rdcfgReserved ‹_› (by omega)
  · refine .unassigned ?_
    simp only [List.forall_mem_cons, List.not_mem_nil, IsEmpty.forall_iff, implies_true, and_true]
    norm_num only
    omega

end Sys2Proof
end

