-- ==== Sys2Proof/Laws/State.lean ====
section
/-! SUPPORT. One lemma per field per update of State, true by definition, so that no later proof
unfolds a record update. `deliverHead`, `responsePort` and `portActions` branch; their lemmas stand
in Laws/Ports.lean. -/

namespace Sys2Proof.Machine


/-! ## `writeCfg` -/

@[simp] theorem writeCfg_codecCfg (v : BitVec 16) (s : State) : (writeCfg v s).codecCfg = v &&& cfgMask := rfl

@[simp] theorem writeCfg_rspq (v : BitVec 16) (s : State) : (writeCfg v s).rspq = s.rspq := rfl

@[simp] theorem writeCfg_rspRaised (v : BitVec 16) (s : State) : (writeCfg v s).rspRaised = s.rspRaised := rfl

@[simp] theorem writeCfg_cmdOffer (v : BitVec 16) (s : State) : (writeCfg v s).cmdOffer = s.cmdOffer := rfl

@[simp] theorem writeCfg_edges (v : BitVec 16) (s : State) : (writeCfg v s).edges = s.edges := rfl

@[simp] theorem writeCfg_accepted (v : BitVec 16) (s : State) : (writeCfg v s).accepted = s.accepted := rfl

@[simp] theorem writeCfg_delivered (v : BitVec 16) (s : State) : (writeCfg v s).delivered = s.delivered := rfl

/-! ## `respond` -/

@[simp] theorem respond_codecCfg (r : RspWord) (s : State) : (respond r s).codecCfg = s.codecCfg := rfl

@[simp] theorem respond_rspq (r : RspWord) (s : State) : (respond r s).rspq = s.rspq ++ [⟨r, 0⟩] := rfl

@[simp] theorem respond_rspRaised (r : RspWord) (s : State) : (respond r s).rspRaised = s.rspRaised := rfl

@[simp] theorem respond_cmdOffer (r : RspWord) (s : State) : (respond r s).cmdOffer = s.cmdOffer := rfl

@[simp] theorem respond_edges (r : RspWord) (s : State) : (respond r s).edges = s.edges := rfl

@[simp] theorem respond_accepted (r : RspWord) (s : State) : (respond r s).accepted = s.accepted := rfl

@[simp] theorem respond_delivered (r : RspWord) (s : State) : (respond r s).delivered = s.delivered := rfl

/-! ## `ageQueue` -/

@[simp] theorem ageQueue_codecCfg  (s : State) : (ageQueue s).codecCfg = s.codecCfg := rfl

@[simp] theorem ageQueue_rspq  (s : State) : (ageQueue s).rspq = s.rspq.map fun q => { q with age := q.age + 1 } := rfl

@[simp] theorem ageQueue_rspRaised  (s : State) : (ageQueue s).rspRaised = s.rspRaised := rfl

@[simp] theorem ageQueue_cmdOffer  (s : State) : (ageQueue s).cmdOffer = s.cmdOffer := rfl

@[simp] theorem ageQueue_edges  (s : State) : (ageQueue s).edges = s.edges := rfl

@[simp] theorem ageQueue_accepted  (s : State) : (ageQueue s).accepted = s.accepted := rfl

@[simp] theorem ageQueue_delivered  (s : State) : (ageQueue s).delivered = s.delivered := rfl

/-! ## `noteOffer` -/

@[simp] theorem noteOffer_codecCfg (e : Edge) (s : State) : (noteOffer e s).codecCfg = s.codecCfg := rfl

@[simp] theorem noteOffer_rspq (e : Edge) (s : State) : (noteOffer e s).rspq = s.rspq := rfl

@[simp] theorem noteOffer_rspRaised (e : Edge) (s : State) : (noteOffer e s).rspRaised = s.rspRaised := rfl

@[simp] theorem noteOffer_cmdOffer (e : Edge) (s : State) : (noteOffer e s).cmdOffer = if e.cmdValid && !cmdReady e s then some e.cmdData else none := rfl

@[simp] theorem noteOffer_edges (e : Edge) (s : State) : (noteOffer e s).edges = s.edges := rfl

@[simp] theorem noteOffer_accepted (e : Edge) (s : State) : (noteOffer e s).accepted = s.accepted := rfl

@[simp] theorem noteOffer_delivered (e : Edge) (s : State) : (noteOffer e s).delivered = s.delivered := rfl

/-! ## `noteAccepted` -/

@[simp] theorem noteAccepted_codecCfg (w : CmdWord) (s : State) : (noteAccepted w s).codecCfg = s.codecCfg := rfl

@[simp] theorem noteAccepted_rspq (w : CmdWord) (s : State) : (noteAccepted w s).rspq = s.rspq := rfl

@[simp] theorem noteAccepted_rspRaised (w : CmdWord) (s : State) : (noteAccepted w s).rspRaised = s.rspRaised := rfl

@[simp] theorem noteAccepted_cmdOffer (w : CmdWord) (s : State) : (noteAccepted w s).cmdOffer = s.cmdOffer := rfl

@[simp] theorem noteAccepted_edges (w : CmdWord) (s : State) : (noteAccepted w s).edges = s.edges := rfl

@[simp] theorem noteAccepted_accepted (w : CmdWord) (s : State) : (noteAccepted w s).accepted = s.accepted ++ [w] := rfl

@[simp] theorem noteAccepted_delivered (w : CmdWord) (s : State) : (noteAccepted w s).delivered = s.delivered := rfl

/-! ## `resetEdge` -/

@[simp] theorem resetEdge_codecCfg  (s : State) : (resetEdge s).codecCfg = 0x3D02#16 := rfl

@[simp] theorem resetEdge_rspq  (s : State) : (resetEdge s).rspq = [] := rfl

@[simp] theorem resetEdge_rspRaised  (s : State) : (resetEdge s).rspRaised = false := rfl

@[simp] theorem resetEdge_cmdOffer  (s : State) : (resetEdge s).cmdOffer = none := rfl

@[simp] theorem resetEdge_edges  (s : State) : (resetEdge s).edges = s.edges := rfl

@[simp] theorem resetEdge_accepted  (s : State) : (resetEdge s).accepted = [] := rfl

@[simp] theorem resetEdge_delivered  (s : State) : (resetEdge s).delivered = [] := rfl

/-! ## `State.reset` -/

@[simp] theorem reset_codecCfg : State.reset.codecCfg = 0x3D02#16 := rfl

@[simp] theorem reset_rspq : State.reset.rspq = [] := rfl

@[simp] theorem reset_rspRaised : State.reset.rspRaised = false := rfl

@[simp] theorem reset_cmdOffer : State.reset.cmdOffer = none := rfl

@[simp] theorem reset_edges : State.reset.edges = [] := rfl

@[simp] theorem reset_accepted : State.reset.accepted = [] := rfl

@[simp] theorem reset_delivered : State.reset.delivered = [] := rfl

end Sys2Proof.Machine
end

