-- ==== Sys2Proof/Laws/Ops.lean ====
section
/-! SUPPORT. What the shared operations of Machine/Ops.lean do: the fields of a built response word
(30_encoding.md R71) and reading `CODEC_CFG` back (10_state.md R23, R27). -/

namespace Sys2Proof.Machine

/-! ## Response words -/

theorem mkResponse_toNat (opc : BitVec 8) (st : Status) (cnt : BitVec 3) (data : Payload) :
    (mkResponse opc st cnt data).toNat =
      opc.toNat * 2 ^ 56 + st.code.toNat * 2 ^ 52 + cnt.toNat * 2 ^ 48 + data.toNat := by
  have h : (mkResponse opc st cnt data).toNat =
    (opc ++ st.code ++ 0#1 ++ cnt ++ data).toNat := rfl
  rw [h]
  simp only [toNat_append_eq_add, BitVec.toNat_ofNat]
  omega

@[simp] theorem rspOpc_mkResponse (opc : BitVec 8) (st : Status) (cnt : BitVec 3)
    (data : Payload) : rspOpc (mkResponse opc st cnt data) = opc := by
  apply BitVec.eq_of_toNat_eq
  rw [rspOpc, toNat_extractLsb'_eq, mkResponse_toNat]
  have := st.code.isLt
  have := cnt.isLt
  have := data.isLt
  have := opc.isLt
  omega

@[simp] theorem rspSt_mkResponse (opc : BitVec 8) (st : Status) (cnt : BitVec 3)
    (data : Payload) : rspSt (mkResponse opc st cnt data) = st.code := by
  apply BitVec.eq_of_toNat_eq
  rw [rspSt, toNat_extractLsb'_eq, mkResponse_toNat]
  have := st.code.isLt
  have := cnt.isLt
  have := data.isLt
  omega

@[simp] theorem rspBit51_mkResponse (opc : BitVec 8) (st : Status) (cnt : BitVec 3)
    (data : Payload) : rspBit51 (mkResponse opc st cnt data) = false := by
  rw [rspBit51, getLsbD_eq_decide, mkResponse_toNat]
  have := st.code.isLt
  have := cnt.isLt
  have := data.isLt
  simp only [decide_eq_false_iff_not]
  omega

@[simp] theorem rspCnt_mkResponse (opc : BitVec 8) (st : Status) (cnt : BitVec 3)
    (data : Payload) : rspCnt (mkResponse opc st cnt data) = cnt := by
  apply BitVec.eq_of_toNat_eq
  rw [rspCnt, toNat_extractLsb'_eq, mkResponse_toNat]
  have := cnt.isLt
  have := data.isLt
  omega

@[simp] theorem rspPayload_mkResponse (opc : BitVec 8) (st : Status) (cnt : BitVec 3)
    (data : Payload) : rspPayload (mkResponse opc st cnt data) = data := by
  apply BitVec.eq_of_toNat_eq
  rw [rspPayload, toNat_extractLsb'_eq, mkResponse_toNat]
  have := data.isLt
  omega

/-- A byte of the payload field, by its position from the low end. -/
theorem extractLsb'_mkResponse (opc : BitVec 8) (st : Status) (cnt : BitVec 3) (data : Payload)
    (i n : Nat) (h : i + n ≤ 48) :
    (mkResponse opc st cnt data).extractLsb' i n = data.extractLsb' i n := by
  have hd := rspPayload_mkResponse opc st cnt data
  rw [rspPayload] at hd
  conv_rhs => rw [← hd]
  ext k hk
  simp only [BitVec.getElem_extractLsb', BitVec.getLsbD_extractLsb']
  simp; omega

/-! ## Packed bytes (20_memory.md R45) -/

/-- A byte of `pack_4(l)` is the list's entry, 0x00 past its end. -/
theorem fieldByte_pack4 (l : List Byte) (p : Nat) (hp : p < 4) :
    fieldByte 4 p (pack4 l) = packByte l p := by
  have h : (pack4 l).toNat =
    (packByte l 0 ++ packByte l 1 ++ packByte l 2 ++ packByte l 3).toNat := rfl
  apply BitVec.eq_of_toNat_eq
  rw [fieldByte, toNat_extractLsb'_eq, h]
  simp only [toNat_append_eq_add]
  have := (packByte l 0).isLt
  have := (packByte l 1).isLt
  have := (packByte l 2).isLt
  have := (packByte l 3).isLt
  obtain rfl | rfl | rfl | rfl : p = 0 ∨ p = 1 ∨ p = 2 ∨ p = 3 := by omega
  all_goals norm_num; omega

/-- A byte of `pack_3(l)` is the list's entry, 0x00 past its end. -/
theorem fieldByte_pack3 (l : List Byte) (p : Nat) (hp : p < 3) :
    fieldByte 3 p (pack3 l) = packByte l p := by
  have h : (pack3 l).toNat = (packByte l 0 ++ packByte l 1 ++ packByte l 2).toNat := rfl
  apply BitVec.eq_of_toNat_eq
  rw [fieldByte, toNat_extractLsb'_eq, h]
  simp only [toNat_append_eq_add]
  have := (packByte l 0).isLt
  have := (packByte l 1).isLt
  have := (packByte l 2).isLt
  obtain rfl | rfl | rfl : p = 0 ∨ p = 1 ∨ p = 2 := by omega
  all_goals norm_num; omega

/-! ## `CODEC_CFG` -/

@[simp] theorem readCfg_writeCfg (v : BitVec 16) (s : State) :
    readCfg (writeCfg v s) = v &&& cfgMask := by
  simp only [readCfg, writeCfg_codecCfg]
  rw [BitVec.and_assoc, BitVec.and_self]

@[simp] theorem readCfg_respond (r : RspWord) (s : State) :
    readCfg (respond r s) = readCfg s := rfl

/-- Every image CFG can write has its bits 7:2 at 0, so it is stored whole. -/
@[simp] theorem cfgImage_and_cfgMask (padc : Symbol) (pen : Bool) (alpha : Alphabet) :
    cfgImage padc pen alpha &&& cfgMask = cfgImage padc pen alpha := by
  have h : ∀ x : BitVec 8, (x ++ 0#6 ++ BitVec.ofBool pen ++ BitVec.ofBool alpha.bit : BitVec 16) &&&
      cfgMask = x ++ 0#6 ++ BitVec.ofBool pen ++ BitVec.ofBool alpha.bit := by
    cases pen <;> cases alpha <;> decide
  exact h padc

end Sys2Proof.Machine
end

