-- ==== Sys2Proof/Laws/Exec.lean ====
section
/-! SUPPORT. `exec`, `executeWord` and `acceptWord` said once, as equations: each answers a next
state that appends one response, a function of the command and of `CODEC_CFG`, and writes
`CODEC_CFG` for CFG alone (20_memory.md R48). Later proofs cite these and unfold no meaning. -/

namespace Sys2Proof.Machine

/-- The response of a command under a configuration. -/
def responseOf (i : Instr) (g : BitVec 16) : RspWord :=
  match i with
  | .elen p len => mkResponse 0x01#8 .ok 0#3 (BitVec.ofNat 48 (elenResult p len.toNat))
  | .dlen len => mkResponse 0x02#8 .ok 0#3 (BitVec.ofNat 48 (dlenResult len.toNat))
  | .enc n a b c => encResponse g n a b c
  | .dec n s0 s1 s2 s3 => decResponse (cfgAlpha g) n s0 s1 s2 s3
  | .cfg _ _ _ => mkResponse 0x30#8 .ok 0#3 0#48
  | .rdcfg => mkResponse 0x31#8 .ok 0#3 (g.setWidth 48)

/-- The state with the configuration a command writes, if it writes one. -/
def configured (i : Instr) (s : State) : State :=
  match i with
  | .elen _ _ => s
  | .dlen _ => s
  | .enc _ _ _ _ => s
  | .dec _ _ _ _ _ => s
  | .cfg padc pen alpha => writeCfg (cfgImage padc pen alpha) s
  | .rdcfg => s

theorem exec_eq (i : Instr) (s : State) :
    exec i s = .next (respond (responseOf i (readCfg s)) (configured i s)) := by
  cases i <;> rfl

/-- The response of a command word, ILLEGAL words included. -/
def wordResponse (w : CmdWord) (g : BitVec 16) : RspWord :=
  match decode w with
  | .ok i => responseOf i g
  | .error _ => illegalResponse (opcOf w)

/-- The state with the configuration a command word writes, if it writes one. -/
def wordConfigured (w : CmdWord) (s : State) : State :=
  match decode w with
  | .ok i => configured i s
  | .error _ => s

theorem executeWord_eq (w : CmdWord) (s : State) :
    executeWord w s = .next (respond (wordResponse w (readCfg s)) (wordConfigured w s)) := by
  unfold executeWord wordResponse wordConfigured
  cases decode w with
  | ok i => exact exec_eq i s
  | error e => rfl

theorem acceptWord_eq (w : CmdWord) (s : State) :
    acceptWord w s =
      .next (respond (wordResponse w (readCfg s)) (wordConfigured w (noteAccepted w s))) :=
  executeWord_eq w (noteAccepted w s)

/-! ## Fields of `wordConfigured` -/

@[simp] theorem configured_rspq (i : Instr) (s : State) : (configured i s).rspq = s.rspq := by
  cases i <;> rfl

@[simp] theorem configured_rspRaised (i : Instr) (s : State) :
    (configured i s).rspRaised = s.rspRaised := by cases i <;> rfl

@[simp] theorem configured_cmdOffer (i : Instr) (s : State) :
    (configured i s).cmdOffer = s.cmdOffer := by cases i <;> rfl

@[simp] theorem configured_edges (i : Instr) (s : State) : (configured i s).edges = s.edges := by
  cases i <;> rfl

@[simp] theorem configured_accepted (i : Instr) (s : State) :
    (configured i s).accepted = s.accepted := by cases i <;> rfl

@[simp] theorem configured_delivered (i : Instr) (s : State) :
    (configured i s).delivered = s.delivered := by cases i <;> rfl

@[simp] theorem wordConfigured_rspq (w : CmdWord) (s : State) :
    (wordConfigured w s).rspq = s.rspq := by
  unfold wordConfigured; cases decode w <;> simp

@[simp] theorem wordConfigured_rspRaised (w : CmdWord) (s : State) :
    (wordConfigured w s).rspRaised = s.rspRaised := by
  unfold wordConfigured; cases decode w <;> simp

@[simp] theorem wordConfigured_cmdOffer (w : CmdWord) (s : State) :
    (wordConfigured w s).cmdOffer = s.cmdOffer := by
  unfold wordConfigured; cases decode w <;> simp

@[simp] theorem wordConfigured_edges (w : CmdWord) (s : State) :
    (wordConfigured w s).edges = s.edges := by
  unfold wordConfigured; cases decode w <;> simp

@[simp] theorem wordConfigured_accepted (w : CmdWord) (s : State) :
    (wordConfigured w s).accepted = s.accepted := by
  unfold wordConfigured; cases decode w <;> simp

@[simp] theorem wordConfigured_delivered (w : CmdWord) (s : State) :
    (wordConfigured w s).delivered = s.delivered := by
  unfold wordConfigured; cases decode w <;> simp

/-- What a word writes to `CODEC_CFG` depends on the old value alone. -/
theorem wordConfigured_codecCfg (w : CmdWord) {s s' : State} (h : s.codecCfg = s'.codecCfg) :
    (wordConfigured w s).codecCfg = (wordConfigured w s').codecCfg := by
  unfold wordConfigured
  cases decode w with
  | error e => exact h
  | ok i => cases i <;> first | exact h | rfl

end Sys2Proof.Machine
end

