-- ==== Sys2Proof/Laws/PerInstr.lean ====
section
/-! SUPPORT. Facts stated of every command as syntax, one lemma per constructor. The family
`EncodedOpcode`: bits 63:56 of a command's word are its opcode (30_encoding.md R60, R65). -/

namespace Sys2Proof.Laws

def EncodedOpcode.Statement (i : Instr) : Prop := opcOf (encode i) = i.opcode

theorem EncodedOpcode.elen (p : Bool) (len : LenWord) :
    EncodedOpcode.Statement (.elen p len) := by
  rw [EncodedOpcode.Statement, opcOf_eq_iff, encode_elen_toNat]
  have := len.isLt
  have := p.toNat_le
  simp only [Instr.opcode, BitVec.toNat_ofNat]
  omega

theorem EncodedOpcode.dlen (len : LenWord) : EncodedOpcode.Statement (.dlen len) := by
  rw [EncodedOpcode.Statement, opcOf_eq_iff, encode_dlen_toNat]
  have := len.isLt
  simp only [Instr.opcode, BitVec.toNat_ofNat]
  omega

theorem EncodedOpcode.enc (n : BitVec 3) (a b c : Byte) :
    EncodedOpcode.Statement (.enc n a b c) := by
  rw [EncodedOpcode.Statement, opcOf_eq_iff, encode_enc_toNat]
  have := n.isLt
  have := a.isLt
  have := b.isLt
  have := c.isLt
  simp only [Instr.opcode, BitVec.toNat_ofNat]
  omega

theorem EncodedOpcode.dec (n : BitVec 3) (s t u v : Symbol) :
    EncodedOpcode.Statement (.dec n s t u v) := by
  rw [EncodedOpcode.Statement, opcOf_eq_iff, encode_dec_toNat]
  have := n.isLt
  have := s.isLt
  have := t.isLt
  have := u.isLt
  have := v.isLt
  simp only [Instr.opcode, BitVec.toNat_ofNat]
  omega

theorem EncodedOpcode.cfg (padc : Symbol) (pen : Bool) (alpha : Alphabet) :
    EncodedOpcode.Statement (.cfg padc pen alpha) := by
  rw [EncodedOpcode.Statement, opcOf_eq_iff, encode_cfg_toNat]
  have := padc.isLt
  have := pen.toNat_le
  have := alpha.bit.toNat_le
  simp only [Instr.opcode, BitVec.toNat_ofNat]
  omega

theorem EncodedOpcode.rdcfg : EncodedOpcode.Statement .rdcfg := rfl

end Sys2Proof.Laws
end

