-- ==== Sys2Proof/Laws/Ports.lean ====
section
/-! SUPPORT. What a rising edge can do, said once: the fields of the port operations, and the
inversion of `clockEdge`. -/

namespace Sys2Proof.Machine

/-! ## The response port -/

/-- A response that transfers is the head of a queue that is not empty and due (20_memory.md R42). -/
theorem rspTransfers_head {e : Edge} {s : State} (h : rspTransfers e s = true) :
    ∃ q rest, s.rspq = q :: rest ∧ Config.lat ≤ q.age + 1 := by
  cases hq : s.rspq with
  | nil => simp [rspTransfers, rspValid, headDue, hq] at h
  | cons q rest =>
    refine ⟨q, rest, rfl, ?_⟩
    simp only [rspTransfers, rspValid, headDue, hq, Bool.and_eq_true, decide_eq_true_eq] at h
    exact h.1.2.1.2

theorem responsePort_of_transfer {e : Edge} {s : State} {q : Queued} {rest : List Queued}
    (h : rspTransfers e s = true) (hq : s.rspq = q :: rest) :
    responsePort e s =
      { s with rspq := rest, delivered := s.delivered ++ [q.word], rspRaised := false } := by
  simp [responsePort, h, deliverHead, hq]

theorem responsePort_of_no_transfer {e : Edge} {s : State} (h : rspTransfers e s = false) :
    responsePort e s = { s with rspRaised := rspValid e s } := by
  simp [responsePort, h]

/-- The signals do not depend on the memory of the command port. -/
@[simp] theorem rspTransfers_noteOffer (e e' : Edge) (s : State) :
    rspTransfers e (noteOffer e' s) = rspTransfers e s := rfl

@[simp] theorem rspValid_noteOffer (e e' : Edge) (s : State) :
    rspValid e (noteOffer e' s) = rspValid e s := rfl

/-- The response port and the ageing of the queue leave these fields alone. -/
@[simp] theorem portActions_codecCfg (e : Edge) (s : State) :
    (portActions e s).codecCfg = s.codecCfg := by
  simp only [portActions, ageQueue_codecCfg, responsePort, deliverHead]
  split <;> [split; skip] <;> rfl

@[simp] theorem portActions_edges (e : Edge) (s : State) :
    (portActions e s).edges = s.edges := by
  simp only [portActions, ageQueue_edges, responsePort, deliverHead]
  split <;> [split; skip] <;> rfl

@[simp] theorem portActions_accepted (e : Edge) (s : State) :
    (portActions e s).accepted = s.accepted := by
  simp only [portActions, ageQueue_accepted, responsePort, deliverHead]
  split <;> [split; skip] <;> rfl

@[simp] theorem portActions_cmdOffer (e : Edge) (s : State) :
    (portActions e s).cmdOffer =
      if e.cmdValid && !cmdReady e s then some e.cmdData else none := by
  simp only [portActions, ageQueue_cmdOffer, responsePort, deliverHead]
  split <;> [split; skip] <;> rfl

/-- The ports at an edge whose response transfers. -/
theorem portActions_of_transfer {e : Edge} {s : State} {q : Queued} {rest : List Queued}
    (h : rspTransfers e s = true) (hq : s.rspq = q :: rest) :
    (portActions e s).rspq = rest.map (fun q => { q with age := q.age + 1 }) ∧
      (portActions e s).delivered = s.delivered ++ [q.word] ∧
      (portActions e s).rspRaised = false := by
  rw [portActions, responsePort_of_transfer (by simpa using h) (by simpa using hq)]
  exact ⟨rfl, rfl, rfl⟩

/-- The ports at an edge with no response transfer. -/
theorem portActions_of_no_transfer {e : Edge} {s : State} (h : rspTransfers e s = false) :
    (portActions e s).rspq = s.rspq.map (fun q => { q with age := q.age + 1 }) ∧
      (portActions e s).delivered = s.delivered ∧
      (portActions e s).rspRaised = rspValid e s := by
  rw [portActions, responsePort_of_no_transfer (by simpa using h)]
  exact ⟨rfl, rfl, rfl⟩

/-! ## The edge -/

/-- What a rising edge can do when it answers a next state: a reset; or the ports act and a word is
accepted; or the ports act and none is. -/
theorem clockEdge_cases {e : Edge} {s t : State} (h : clockEdge e s = .next t) :
    (e.rst = true ∧ t = resetEdge s) ∨
    (e.rst = false ∧ brokenDuty e s = none ∧ cmdTransfers e s = true ∧
      acceptWord e.cmdData (portActions e s) = .next t) ∨
    (e.rst = false ∧ brokenDuty e s = none ∧ cmdTransfers e s = false ∧ t = portActions e s) := by
  unfold clockEdge at h
  cases hr : e.rst with
  | true => left; simp [hr] at h; exact ⟨rfl, h.symm⟩
  | false =>
    right
    cases hb : brokenDuty e s with
    | some r => simp [hr, hb] at h
    | none =>
      cases hc : cmdTransfers e s with
      | true => left; simp [hr, hb, hc] at h; exact ⟨rfl, rfl, rfl, h⟩
      | false => right; simp [hr, hb, hc] at h; exact ⟨rfl, rfl, rfl, h.symm⟩

/-- An edge without reset, with the state it gives written out: a command word is accepted and
executed on what the ports leave, or the ports act alone. -/
theorem clockEdge_without_reset {e : Edge} {s t : State} (h : clockEdge e s = .next t)
    (hr : e.rst = false) :
    brokenDuty e s = none ∧
      ((cmdTransfers e s = true ∧
          t = respond (wordResponse e.cmdData (readCfg s))
            (wordConfigured e.cmdData (noteAccepted e.cmdData (portActions e s)))) ∨
        (cmdTransfers e s = false ∧ t = portActions e s)) := by
  rcases clockEdge_cases h with h | ⟨_, hb, hc, ha⟩ | ⟨_, hb, hc, ht⟩
  · simp [hr] at h
  · rw [acceptWord_eq] at ha
    injection ha with ha
    refine ⟨hb, .inl ⟨hc, ?_⟩⟩
    rw [← ha]
    simp [readCfg]
  · exact ⟨hb, .inr ⟨hc, ht⟩⟩

/-- A step is the next listed edge, or nothing. -/
theorem step_cases {s t : State} (h : step s = .next t) :
    (s.edges = [] ∧ t = s) ∨
    ∃ e rest, s.edges = e :: rest ∧ clockEdge e { s with edges := rest } = .next t := by
  unfold step nextEdge at h
  split at h
  · rename_i he
    left
    injection h with h
    exact ⟨he, h.symm⟩
  · rename_i e rest he
    exact .inr ⟨e, rest, he, h⟩

end Sys2Proof.Machine
end

