-- ==== Sys2Proof/Laws/Session.lean ====
section
/-! SUPPORT. Runs over lists of words and of edges: how one unrolls, and what one word does to the
queue and to `CODEC_CFG` at transaction level. -/

namespace Sys2Proof.Machine

@[simp] theorem queuedWords_respond (r : RspWord) (s : State) :
    queuedWords (respond r s) = queuedWords s ++ [r] := by
  simp [queuedWords]

@[simp] theorem queuedWords_wordConfigured (w : CmdWord) (s : State) :
    queuedWords (wordConfigured w s) = queuedWords s := by
  simp [queuedWords]

@[simp] theorem queuedWords_noteAccepted (w : CmdWord) (s : State) :
    queuedWords (noteAccepted w s) = queuedWords s := rfl

/-- Ages are no part of the queue's words. -/
@[simp] theorem queuedWords_ageQueue (s : State) : queuedWords (ageQueue s) = queuedWords s := by
  simp [queuedWords, Function.comp_def]

/-- The ports of an edge pass words from the queue to the delivered responses and lose none. -/
theorem delivered_append_queued_portActions (e : Edge) (s : State) :
    (portActions e s).delivered ++ queuedWords (portActions e s) =
      s.delivered ++ queuedWords s := by
  cases h : rspTransfers e s with
  | true =>
    obtain ⟨q, rest, hq, _⟩ := rspTransfers_head h
    obtain ⟨h1, h2, _⟩ := portActions_of_transfer h hq
    simp [queuedWords, h1, h2, hq, Function.comp_def]
  | false =>
    obtain ⟨h1, h2, _⟩ := portActions_of_no_transfer h
    simp [queuedWords, h1, h2, Function.comp_def]

/-- `CODEC_CFG` after a word: the image a CFG writes, or what it was (43_config.md R115). -/
def configAfter (w : CmdWord) (g : BitVec 16) : BitVec 16 :=
  match decode w with
  | .ok (.cfg padc pen alpha) => cfgImage padc pen alpha
  | .ok (.elen _ _) => g
  | .ok (.dlen _) => g
  | .ok (.enc _ _ _ _) => g
  | .ok (.dec _ _ _ _ _) => g
  | .ok .rdcfg => g
  | .error _ => g

theorem readCfg_wordConfigured (w : CmdWord) (s : State) :
    readCfg (wordConfigured w s) = configAfter w (readCfg s) := by
  unfold wordConfigured configAfter
  cases decode w with
  | error e => rfl
  | ok i => cases i <;> first | rfl | simp [configured]

theorem runWords_cons (w : CmdWord) (ws : List CmdWord) (s : State) :
    runWords (w :: ws) s =
      runWords ws (respond (wordResponse w (readCfg s)) (wordConfigured w (noteAccepted w s))) := by
  rw [runWords, acceptWord_eq]

theorem runWords_append (ws ws' : List CmdWord) (s t : State) (h : runWords ws s = .next t) :
    runWords (ws ++ ws') s = runWords ws' t := by
  induction ws generalizing s with
  | nil => rw [runWords] at h; injection h with h; rw [h]; rfl
  | cons w ws ih =>
    rw [List.cons_append, runWords_cons]
    rw [runWords_cons] at h
    exact ih _ h

theorem runEdges_append (es es' : List Edge) (s t : State) (h : runEdges es s = .next t) :
    runEdges (es ++ es') s = runEdges es' t := by
  induction es generalizing s with
  | nil => rw [runEdges] at h; injection h with h; rw [h]; rfl
  | cons e es ih =>
    rw [List.cons_append, runEdges]
    rw [runEdges] at h
    cases hc : clockEdge e s with
    | next u => rw [hc] at h; exact ih _ h
    | fault f => rw [hc] at h; cases h
    | refused r => rw [hc] at h; cases h

end Sys2Proof.Machine
end

