-- ==== Sys2Proof/Tests/Slice0.lean ====
section
/-! SUPPORT. The model's own tests. Expected words are those of 95_test_vectors.md (the id is in each
docstring) or are written out bit by bit from 30_encoding.md R61 to R64. Then a witness for every
statement of Certificates/Slice0/Obligations.lean that has hypotheses. -/

namespace Sys2Proof.Tests

open Sys2Proof.Machine

/-! ## Well-formedness (R68) -/

theorem test_wf_refuses_enc_0 : (Instr.enc 0#3 0#8 0#8 0#8).wf = false := by decide

theorem test_wf_refuses_enc_4 : (Instr.enc 4#3 0#8 0#8 0#8).wf = false := by decide

theorem test_wf_refuses_dec_0 : (Instr.dec 0#3 0#8 0#8 0#8 0#8).wf = false := by decide

theorem test_wf_refuses_dec_5 : (Instr.dec 5#3 0#8 0#8 0#8 0#8).wf = false := by decide

theorem test_wf_accepts_the_counts_in_range :
    (Instr.enc 1#3 0#8 0#8 0#8).wf = true ∧ (Instr.enc 3#3 0#8 0#8 0#8).wf = true ∧
      (Instr.dec 1#3 0#8 0#8 0#8 0#8).wf = true ∧ (Instr.dec 4#3 0#8 0#8 0#8 0#8).wf = true := by
  decide

/-! ## Decoding: one word a command, its fields in the order of the format -/

/-- OPC 00000001, bits 55:49, P at bit 48, bits 47:32, LEN (format L). -/
theorem test_decode_elen :
    decode (0b00000001#8 ++ 0b0000000#7 ++ 0b1#1 ++ 0b0000000000000000#16 ++ 0x80000007#32) =
      .ok (.elen true 0x80000007#32) := by decide

/-- OPC 00000010, bits 55:32, LEN (format L, P reserved). -/
theorem test_decode_dlen :
    decode (0b00000010#8 ++ 0x000000#24 ++ 0xFFFFFFFE#32) = .ok (.dlen 0xFFFFFFFE#32) := by decide

/-- OPC 00010000, bits 55:51, CNT 010, bits 47:24, then the bytes at positions 0, 1, 2 (format G). -/
theorem test_decode_enc :
    decode (0b00010000#8 ++ 0b00000#5 ++ 0b010#3 ++ 0x000000#24 ++ 0x4D#8 ++ 0x61#8 ++ 0xFF#8) =
      .ok (.enc 2#3 0x4D#8 0x61#8 0xFF#8) := by decide

/-- OPC 00100000, bits 55:51, CNT 100, bits 47:32, then the symbols at positions 0 to 3 (format G). -/
theorem test_decode_dec :
    decode (0b00100000#8 ++ 0b00000#5 ++ 0b100#3 ++ 0x0000#16 ++ 0x62#8 ++ 0x47#8 ++ 0x51#8 ++
      0x3D#8) = .ok (.dec 4#3 0x62#8 0x47#8 0x51#8 0x3D#8) := by decide

/-- OPC 00110000, bits 55:16, PADC, bits 7:2, PEN, ALPHA (format C). -/
theorem test_decode_cfg :
    decode (0b00110000#8 ++ 0x0000000000#40 ++ 0x2A#8 ++ 0b000000#6 ++ 0b1#1 ++ 0b0#1) =
      .ok (.cfg 0x2A#8 true .standard) := by decide

/-- OPC 00110001, bits 55:0 (format N). -/
theorem test_decode_rdcfg : decode (0b00110001#8 ++ 0#56) = .ok .rdcfg := by decide

/-- The words of W1, L12, DE12, CF4 and L19, as a host assembles them. -/
theorem test_encode :
    encode (.enc 3#3 0xFF#8 0xFF#8 0xA0#8) = 0x1003000000FFFFA0#64 ∧
      encode (.elen true 0xFFFFFFFF#32) = 0x01010000FFFFFFFF#64 ∧
      encode (.dec 2#3 0x54#8 0x51#8 0x46#8 0x75#8) = 0x2002000054514675#64 ∧
      encode (.cfg 0xFF#8 true .urlSafe) = 0x300000000000FF03#64 ∧
      encode (.dlen 0xFFFFFFFF#32) = 0x02000000FFFFFFFF#64 := by decide

/-- Unassigned opcodes: X1 to X3. -/
theorem test_decode_refuses_unassigned_opcodes :
    decode 0x0000000000000000#64 = .error .unassignedOpcode ∧
      decode 0xFF00000000000000#64 = .error .unassignedOpcode ∧
      decode 0x0300000000000000#64 = .error .unassignedOpcode := by decide

/-- CNT out of range: X4, X5, X7, X8. -/
theorem test_decode_refuses_counts_out_of_range :
    decode 0x10000000004D616E#64 = .error .countOutOfRange ∧
      decode 0x10040000004D616E#64 = .error .countOutOfRange ∧
      decode 0x2000000054574675#64 = .error .countOutOfRange ∧
      decode 0x2005000054574675#64 = .error .countOutOfRange := by decide

/-- Reserved bits: X6, X9 to X13, one a command. -/
theorem test_decode_refuses_reserved_bits :
    decode 0x10030000014D616E#64 = .error .reservedBitSet ∧
      decode 0x200C000054574675#64 = .error .reservedBitSet ∧
      decode 0x0201000000000005#64 = .error .reservedBitSet ∧
      decode 0x0102000000000005#64 = .error .reservedBitSet ∧
      decode 0x3000000000000005#64 = .error .reservedBitSet ∧
      decode 0x3100000000000001#64 = .error .reservedBitSet := by decide

/-- The opcode table's numbering: bit `k` of the number is bit `k` of the command word. -/
theorem test_decodeTableWord :
    decodeTableWord 64 0x2004000054574675 = some (.dec 4#3 0x54#8 0x57#8 0x46#8 0x75#8) ∧
      decodeTableWord 64 0 = none := by decide

/-! ## One step on a small state -/

/-- The reset state but for `CODEC_CFG`. -/
def configured (g : BitVec 16) : State := { State.reset with codecCfg := g }

/-- The step that runs the word `w` from `CODEC_CFG` = `g` leaves `g'` there and the one response
`r`. -/
def runsTo (g : BitVec 16) (w : Nat) (r : RspWord) (g' : BitVec 16) : Bool :=
  match step ((configured g).withFetchWord 64 w) with
  | .next t => decide (t.codecCfg = g') && decide (queuedWords t = [r])
  | .fault _ => false
  | .refused _ => false

/-- L12. -/
theorem test_elen_largest :
    runsTo 0x3D02#16 0x01010000FFFFFFFF 0x0100000155555554#64 0x3D02#16 = true := by decide

/-- L4 and L3: the P bit counts, not PEN. -/
theorem test_elen_reads_its_own_padding_bit :
    runsTo 0x3D00#16 0x0101000000000001 0x0100000000000004#64 0x3D00#16 = true ∧
      runsTo 0x3D02#16 0x0100000000000001 0x0100000000000002#64 0x3D02#16 = true := by decide

/-- L19. -/
theorem test_dlen_largest :
    runsTo 0x3D02#16 0x02000000FFFFFFFF 0x02000000C0000000#64 0x3D02#16 = true := by decide

/-- L14 and L13. -/
theorem test_dlen_is_a_capacity :
    runsTo 0x3D02#16 0x0200000000000001 0x0200000000000003#64 0x3D02#16 = true ∧
      runsTo 0x3D02#16 0x0200000000000000 0x0200000000000000#64 0x3D02#16 = true := by decide

/-- W1 and W2: the two alphabets. -/
theorem test_enc_both_alphabets :
    runsTo 0x3D02#16 0x1003000000FFFFA0 0x100400002F2F2B67#64 0x3D02#16 = true ∧
      runsTo 0x0001#16 0x1003000000FFFFA0 0x100400005F5F2D67#64 0x0001#16 = true := by decide

/-- EN6, EN9, EN8 and EN12: absent bytes, and partial groups with and without padding. -/
theorem test_enc_partial_groups :
    runsTo 0x3D02#16 0x10020000004D61FF 0x100400005457453D#64 0x3D02#16 = true ∧
      runsTo 0x3D00#16 0x10020000004D6100 0x1003000054574500#64 0x3D00#16 = true ∧
      runsTo 0x3D00#16 0x10010000004D0000 0x1002000054510000#64 0x3D00#16 = true ∧
      runsTo 0x2A03#16 0x1001000000FF0000 0x100400005F772A2A#64 0x2A03#16 = true := by decide

/-- DE1, DE10 and DE15: a full group, the skipped third byte, the other alphabet. -/
theorem test_dec_groups :
    runsTo 0x3D02#16 0x2004000054574675 0x20030000004D616E#64 0x3D02#16 = true ∧
      runsTo 0x3D02#16 0x2004000041413D41 0x2002000000000000#64 0x3D02#16 = true ∧
      runsTo 0x0001#16 0x200400002D5F3841 0x2003000000FBFF00#64 0x0001#16 = true := by decide

/-- DE12, DE6, DE9 and DE14: absent symbols and dropped groups. -/
theorem test_dec_partial_and_dropped_groups :
    runsTo 0x3D02#16 0x2002000054514675 0x20010000004D0000#64 0x3D02#16 = true ∧
      runsTo 0x3D02#16 0x2001000054000000 0x2000000000000000#64 0x3D02#16 = true ∧
      runsTo 0x3D02#16 0x20040000543D5745 0x2000000000000000#64 0x3D02#16 = true ∧
      runsTo 0x3D02#16 0x200400002D5F3841 0x2000000000000000#64 0x3D02#16 = true := by decide

/-- CF2, CF3 and CF4, first commands. -/
theorem test_cfg_writes :
    runsTo 0x3D02#16 0x3000000000000001 0x3000000000000000#64 0x0001#16 = true ∧
      runsTo 0x3D02#16 0x3000000000002A00 0x3000000000000000#64 0x2A00#16 = true ∧
      runsTo 0x3D02#16 0x300000000000FF03 0x3000000000000000#64 0xFF03#16 = true := by decide

/-- X12. -/
theorem test_cfg_illegal_leaves_the_configuration :
    runsTo 0x3D02#16 0x3000000000000005 0x3010000000000000#64 0x3D02#16 = true := by decide

/-- CF1 and CF4. -/
theorem test_rdcfg_reads :
    runsTo 0x3D02#16 0x3100000000000000 0x3100000000003D02#64 0x3D02#16 = true ∧
      runsTo 0xFF03#16 0x3100000000000000 0x310000000000FF03#64 0xFF03#16 = true := by decide

/-- X1, X4 and X13. -/
theorem test_illegal_words_respond :
    runsTo 0x3D02#16 0 0x0010000000000000#64 0x3D02#16 = true ∧
      runsTo 0x3D02#16 0x10000000004D616E 0x1010000000000000#64 0x3D02#16 = true ∧
      runsTo 0x3D02#16 0x3100000000000001 0x3110000000000000#64 0x3D02#16 = true := by decide

/-! ## Tables, messages -/

/-- The table of R29 where its ranges meet. -/
theorem test_alphabet_boundaries :
    ([25#6, 26#6, 51#6, 52#6, 61#6, 62#6, 63#6].map (encLut .standard)) =
      [0x5A#8, 0x61#8, 0x7A#8, 0x30#8, 0x39#8, 0x2B#8, 0x2F#8] ∧
      ([61#6, 62#6, 63#6].map (encLut .urlSafe)) = [0x39#8, 0x2D#8, 0x5F#8] := by decide

/-- W4, last group, and W5, last group, through the framing of R46. -/
theorem test_framing_of_last_groups :
    (encGroups [0x21#8, 0xC3#8, 0xB6#8, 0xC3#8, 0xB6#8]).map encode =
      [0x100300000021C3B6#64, 0x1002000000C3B600#64] ∧
      decGroups [0x62#8, 0x47#8, 0x51#8, 0x3D#8] = [.dec 4#3 0x62#8 0x47#8 0x51#8 0x3D#8] ∧
      decPayload 0x20020000006C6400#64 = [0x6C#8, 0x64#8] ∧
      encPayload 0x1003000077375900#64 = [0x77#8, 0x37#8, 0x59#8] := by decide

/-- R75's syntax: `ENC 2, 0xC3B600` (W4), `DEC 4, "bGQ="` (W5), `CFG 1, 0, 0x00` (CF2). -/
theorem test_assemble :
    assemble (.enc 2#3 0xC3B600#24) = 0x1002000000C3B600#64 ∧
      assemble (.decText 4#3 0x62#8 0x47#8 0x51#8 0x3D#8) = 0x200400006247513D#64 ∧
      assemble (.cfg .urlSafe false 0x00#8) = 0x3000000000000001#64 := by decide

/-! ## Witnesses: what each statement assumes is met, at the ends of its ranges -/

/-- One command of each constructor, the counts at both ends. -/
theorem witness_DecodeOfEncodeIsTheCommand :
    ([.elen true 0#32, .dlen 0#32, .enc 1#3 1#8 2#8 3#8, .enc 3#3 1#8 2#8 3#8,
      .dec 1#3 1#8 2#8 3#8 4#8, .dec 4#3 1#8 2#8 3#8 4#8, .cfg 0xFF#8 true .urlSafe,
      .rdcfg] : List Instr).all Instr.wf = true := by decide

theorem witness_EncodeOfDecodeIsTheWord :
    decode 0x3100000000000000#64 = .ok .rdcfg ∧
      decode 0x0101FFFFFFFFFFFF#64 = .error .reservedBitSet := by decide

/-- Every row has a word that is a command of it. -/
theorem witness_CommandWordsAreTheTableRows :
    (opcodeTable.zip [0x0101000000000007#64, 0x0200000000000005#64, 0x1003000000FFFFA0#64,
        0x2004000041414141#64, 0x300000000000FF03#64, 0x3100000000000000#64]).all
      (fun p => p.1.fixedBitsOf p.2 && p.1.countOk p.2) = true := by decide

/-- Each of R130's causes at a word of its own, and a word of none. -/
theorem witness_IllegalHasExactlyThreeCauses :
    (∀ r ∈ opcodeTable, opcOf 0xFF00000000000000#64 ≠ opcOf r.value) ∧
      (∃ r ∈ opcodeTable, opcOf 0x3000000000000004#64 = opcOf r.value ∧
        0x3000000000000004#64 &&& r.mask ≠ r.value) ∧
      ([0x1000000000000000#64, 0x1004000000000000#64].all (fun C =>
        decide (opcOf C = 0x10#8 ∧ ¬(1 ≤ (cntOf C).toNat ∧ (cntOf C).toNat ≤ 3))) = true) ∧
      ([0x2000000000000000#64, 0x2005000000000000#64].all (fun C =>
        decide (opcOf C = 0x20#8 ∧ ¬(1 ≤ (cntOf C).toNat ∧ (cntOf C).toNat ≤ 4))) = true) ∧
      decode 0x3100000000000000#64 = .ok .rdcfg ∧
      decode 0xFF00000000000000#64 = .error .unassignedOpcode := by decide

/-- Operands at the ends of their fields. -/
theorem witness_OperandsAreTheFieldsOfTheWord :
    decode 0x01010000FFFFFFFF#64 = .ok (.elen true 0xFFFFFFFF#32) ∧
      decode 0x0100000000000000#64 = .ok (.elen false 0#32) ∧
      decode 0x02000000FFFFFFFF#64 = .ok (.dlen 0xFFFFFFFF#32) ∧
      decode 0x1001000000FF00FF#64 = .ok (.enc 1#3 0xFF#8 0#8 0xFF#8) ∧
      decode 0x20040000FF00FF00#64 = .ok (.dec 4#3 0xFF#8 0#8 0xFF#8 0#8) ∧
      decode 0x3000000000000000#64 = .ok (.cfg 0#8 false .standard) ∧
      decode 0x300000000000FF03#64 = .ok (.cfg 0xFF#8 true .urlSafe) := by decide

theorem witness_ReverseTableInvertsTheAlphabet :
    decLut .standard 0x2F#8 = some 63#6 ∧ decLut .urlSafe 0x2F#8 = none ∧
      decLut .urlSafe 0x41#8 = some 0#6 := by decide

/-- The premise of the two statements on the commands that are no CFG. -/
theorem witness_not_cfg :
    ∀ padc pen alpha, (Instr.rdcfg ≠ .cfg padc pen alpha) ∧
      (Instr.elen false 0#32 ≠ .cfg padc pen alpha) ∧ (Instr.dlen 0#32 ≠ .cfg padc pen alpha) ∧
      (Instr.enc 1#3 0#8 0#8 0#8 ≠ .cfg padc pen alpha) ∧
      (Instr.dec 1#3 0#8 0#8 0#8 0#8 ≠ .cfg padc pen alpha) := by
  intro padc pen alpha
  simp

/-- Reserved bits 55, 49, 47 and 32 of ELEN. -/
theorem witness_ElenRespondsTheEncodedLength :
    [0x0180000000000000#64, 0x0102000000000000#64, 0x0100800000000000#64,
          0x0100000100000000#64].all (fun C =>
      decide (opcOf C = 0x01#8 ∧ C &&& 0x00FEFFFF00000000#64 ≠ 0#64)) = true := by decide

/-- Reserved bits 55, 48 and 32 of DLEN, and a text of `len` symbols for the shortest lengths. -/
theorem witness_DlenRespondsTheDecodedCapacity :
    ([0x0280000000000000#64, 0x0201000000000000#64, 0x0200000100000000#64].all (fun C =>
        decide (opcOf C = 0x02#8 ∧ C &&& 0x00FFFFFF00000000#64 ≠ 0#64)) = true) ∧
      ([] : List Symbol).length = (0#32).toNat ∧ [0x41#8].length = (1#32).toNat := by decide

/-- The least and the largest count, and the reserved bits 55, 51, 47 and 24 and the counts 0, 4
and 7 of ENC. -/
theorem witness_EncRespondsTheGroupsSymbols :
    (∀ n ∈ [1#3, 3#3], 1 ≤ n.toNat ∧ n.toNat ≤ 3) ∧
      ([0x1081000000000000#64, 0x1009000000000000#64, 0x1001800000000000#64,
          0x1001000001000000#64].all (fun C =>
        decide (opcOf C = 0x10#8 ∧ C &&& 0x00F8FFFFFF000000#64 ≠ 0#64)) = true) ∧
      ([0x1000000000000000#64, 0x1004000000000000#64, 0x1007000000000000#64].all (fun C =>
        decide (opcOf C = 0x10#8 ∧ ¬(1 ≤ (cntOf C).toNat ∧ (cntOf C).toNat ≤ 3))) = true) := by decide

/-- The least and the largest count, and two states that differ in all but the configuration. -/
theorem witness_EncKeepsNoState :
    (∀ n ∈ [1#3, 3#3], 1 ≤ n.toNat ∧ n.toNat ≤ 3) ∧ readCfg State.reset =
      readCfg { State.reset with rspq := [⟨0#64, 3⟩], accepted := [0#64], rspRaised := true } := by
  decide

/-- Groups that agree on the present positions alone, and ENC words with bit 24 or bit 31 set whose
CNT is at either end of its range and next to it. -/
theorem witness_AbsentPositionsAreIgnored :
    (∃ a b c a' b' c' : Byte, (a, b, c) ≠ (a', b', c') ∧
      (0 < (1#3).toNat → a = a') ∧ (1 < (1#3).toNat → b = b') ∧ (2 < (1#3).toNat → c = c')) ∧
    (∃ w x y z w' x' y' z' : Symbol, (w, x, y, z) ≠ (w', x', y', z') ∧
      (0 < (3#3).toNat → w = w') ∧ (1 < (3#3).toNat → x = x') ∧ (2 < (3#3).toNat → y = y') ∧
      (3 < (3#3).toNat → z = z')) ∧
    ([0x1001000001000000#64, 0x1003000080000000#64].all (fun C =>
        decide (opcOf C = 0x10#8 ∧ C.extractLsb' 24 8 ≠ 0#8 ∧ 1 ≤ (cntOf C).toNat ∧
          (cntOf C).toNat ≤ 3)) = true) ∧
    ([0x1000000001000000#64, 0x1004000080000000#64].all (fun C =>
        decide (opcOf C = 0x10#8 ∧ C.extractLsb' 24 8 ≠ 0#8)) = true) :=
  ⟨⟨1#8, 2#8, 3#8, 1#8, 9#8, 9#8, by decide⟩, ⟨1#8, 2#8, 3#8, 4#8, 1#8, 2#8, 3#8, 9#8, by decide⟩,
    by decide, by decide⟩

/-- The least and the largest count, present symbols that resolve and that do not, and the reserved
bits 55, 51, 47 and 32 and the counts 0, 5 and 7 of DEC. -/
theorem witness_DecRespondsTheGroupsBytes :
    (∀ n ∈ [1#3, 4#3], 1 ≤ n.toNat ∧ n.toNat ≤ 4) ∧
      decLut (cfgAlpha (readCfg State.reset)) 0x41#8 = some 0#6 ∧
      decLut (cfgAlpha (readCfg State.reset)) 0x3D#8 = none ∧
      ([0x2081000000000000#64, 0x2009000000000000#64, 0x2001800000000000#64,
          0x2001000100000000#64].all (fun C =>
        decide (opcOf C = 0x20#8 ∧ C &&& 0x00F8FFFF00000000#64 ≠ 0#64)) = true) ∧
      ([0x2000000000000000#64, 0x2005000000000000#64, 0x2007000000000000#64].all (fun C =>
        decide (opcOf C = 0x20#8 ∧ ¬(1 ≤ (cntOf C).toNat ∧ (cntOf C).toNat ≤ 4))) = true) := by decide

/-- An absent and an unresolved position, and a group that emits all three bytes. -/
theorem witness_DecRegrouperIsTheConcatenation :
    (decLane .standard 1#3 1 0x41#8).present = false ∧
      (decLane .urlSafe 4#3 3 0x3D#8).present = false ∧
      decEmit ⟨true, 19#6⟩ ⟨true, 22#6⟩ ⟨true, 5#6⟩ ⟨true, 46#6⟩ = [0x4D#8, 0x61#8, 0x6E#8] := by
  decide

/-- The least and the largest count, and each way to drop a group: the first symbol, the second, and
a count of 1. -/
theorem witness_DecDropsUnresolvableGroupsSilently :
    (∀ n ∈ [1#3, 4#3], 1 ≤ n.toNat ∧ n.toNat ≤ 4) ∧
      decLut (cfgAlpha (readCfg State.reset)) 0x2D#8 = none ∧
      decLut (cfgAlpha (readCfg State.reset)) 0xFF#8 = none ∧ (1#3).toNat = 1 := by decide

/-- The group `AA=A`. -/
theorem witness_DecSkipsOnlyTheUnresolvedThirdByte :
    decLut (cfgAlpha (readCfg State.reset)) 0x41#8 = some 0#6 ∧
      decLut (cfgAlpha (readCfg State.reset)) 0x3D#8 = none := by decide

/-- The least and the largest count, two configurations of one alphabet, and a byte outside both
alphabets. -/
theorem witness_DecDoesNotReadThePadding :
    (∀ n ∈ [1#3, 4#3], 1 ≤ n.toNat ∧ n.toNat ≤ 4) ∧
      cfgAlpha (readCfg State.reset) = cfgAlpha (readCfg (configured 0x4100#16)) ∧
      ∀ v : Sextet, encLut .standard v ≠ 0x80#8 ∧ encLut .urlSafe v ≠ 0x80#8 := by decide

/-- Reserved bits 55, 16, 7 and 2 of CFG. -/
theorem witness_CfgWritesTheWholeConfiguration :
    [0x3080000000000000#64, 0x3000000000010000#64, 0x3000000000000080#64,
          0x3000000000000004#64].all (fun C =>
      decide (opcOf C = 0x30#8 ∧ C &&& 0x00FFFFFFFFFF00FC#64 ≠ 0#64)) = true := by decide

/-- Reserved bits 55 and 0 of RDCFG. -/
theorem witness_RdcfgRespondsTheConfiguration :
    [0x3180000000000000#64, 0x3100000000000001#64].all (fun C =>
      decide (opcOf C = 0x31#8 ∧ C &&& 0x00FFFFFFFFFFFFFF#64 ≠ 0#64)) = true := by decide

/-! ### Steps and ports -/

/-- An edge without reset at which the host offers nothing and takes what it is given, the block
willing. -/
def takingEdge : Edge := ⟨false, false, 0#64, true, true, true⟩

/-- An edge without reset at which nothing happens. -/
def idleEdge : Edge := ⟨false, false, 0#64, false, false, false⟩

/-- A state whose only response, `r`, may be presented at the next edge. -/
def dueState (r : RspWord) : State := { State.reset with rspq := [⟨r, Config.latPred⟩] }

/-- A state whose queue is full. -/
def fullState : State := { State.reset with rspq := List.replicate Config.depth ⟨0#64, 0⟩ }

theorem fullState_full : Config.depth ≤ fullState.rspq.length := by simp [fullState]

theorem headDue_dueState (r : RspWord) : headDue (dueState r) = true := by
  simp [headDue, dueState, Config.lat]

/-- A malformed CFG that transfers at the next edge. -/
theorem witness_IllegalWordChangesNoStateAndResponds :
    (offerNext 0x3000000000000005#64 State.reset).edges = [offerEdge 0x3000000000000005#64] ∧
      (offerEdge 0x3000000000000005#64).rst = false ∧
      brokenDuty (offerEdge 0x3000000000000005#64) (offerNext 0x3000000000000005#64 State.reset) =
        none ∧
      (offerEdge 0x3000000000000005#64).cmdValid = true ∧
      cmdReady (offerEdge 0x3000000000000005#64) (offerNext 0x3000000000000005#64 State.reset) =
        true ∧
      decode (offerEdge 0x3000000000000005#64).cmdData = .error .reservedBitSet := by decide

/-- A well-formed CFG that transfers at the next edge. -/
theorem witness_StepExecutesTheDecodedCommand :
    (offerNext 0x3000000000000001#64 State.reset).edges = [offerEdge 0x3000000000000001#64] ∧
      (offerEdge 0x3000000000000001#64).rst = false ∧
      brokenDuty (offerEdge 0x3000000000000001#64) (offerNext 0x3000000000000001#64 State.reset) =
        none ∧
      (offerEdge 0x3000000000000001#64).cmdValid = true ∧
      cmdReady (offerEdge 0x3000000000000001#64) (offerNext 0x3000000000000001#64 State.reset) =
        true ∧
      decode (offerEdge 0x3000000000000001#64).cmdData = .ok (.cfg 0#8 false .urlSafe) := by decide

theorem witness_PlacedWordRunsAtTheNextStep :
    decodeTableWord 64 0x3100000000000000 = some .rdcfg := by decide

/-- A host that keeps its word, one that drops it and one that changes it. -/
theorem witness_StepGoesOnUnlessTheHostBreaksItsDuty :
    brokenDuty (offerEdge 5#64) { State.reset with cmdOffer := some 5#64 } = none ∧
      brokenDuty idleEdge { State.reset with cmdOffer := some 5#64 } = some .hostDroppedOffer ∧
      brokenDuty (offerEdge 6#64) { State.reset with cmdOffer := some 5#64 } =
        some .hostChangedOffer := by decide

/-- A command that transfers, a command that does not, a response that transfers, and one that the
block does not yet present. -/
theorem witness_TransfersFollowTheHandshake :
    ((offerEdge 0x3100000000000000#64).rst = false ∧
      (offerEdge 0x3100000000000000#64).cmdValid = true ∧
      cmdReady (offerEdge 0x3100000000000000#64) State.reset = true ∧
      ∃ t, clockEdge (offerEdge 0x3100000000000000#64) State.reset = .next t) ∧
    (idleEdge.rst = false ∧ cmdReady idleEdge State.reset = false ∧
      ∃ t, clockEdge idleEdge State.reset = .next t) ∧
    (takingEdge.rst = false ∧ rspValid takingEdge (dueState 7#64) = true ∧
      takingEdge.rspReady = true ∧ ∃ t, clockEdge takingEdge (dueState 7#64) = .next t) ∧
    (headDue (dueState 7#64) = true ∧ (dueState 7#64).rspRaised = false) :=
  ⟨⟨rfl, rfl, by decide, _, rfl⟩, ⟨rfl, by decide, _, rfl⟩,
    ⟨rfl, by rw [rspValid, headDue_dueState]; rfl, rfl, _, rfl⟩, headDue_dueState _, rfl⟩

/-- A dropped and a changed offer, a response raised and not taken, a command offered and not
accepted. -/
theorem witness_OffersStayStableUntilTheyTransfer :
    (∃ s : State, s.edges = [idleEdge] ∧ idleEdge.rst = false ∧ s.cmdOffer = some 5#64 ∧
      idleEdge.cmdValid = false) ∧
    (∃ s : State, s.edges = [offerEdge 6#64] ∧ (offerEdge 6#64).rst = false ∧
      s.cmdOffer = some 5#64 ∧ (offerEdge 6#64).cmdValid = true ∧ (offerEdge 6#64).cmdData ≠ 5#64) ∧
    (∃ t, clockEdge { idleEdge with validChoice := true } (dueState 7#64) = .next t ∧
      rspValid { idleEdge with validChoice := true } (dueState 7#64) = true ∧
      idleEdge.rspReady = false ∧ idleEdge.rst = false) ∧
    (∃ t, clockEdge (offerEdge 5#64) fullState = .next t ∧ (offerEdge 5#64).rst = false ∧
      (offerEdge 5#64).cmdValid = true ∧ cmdReady (offerEdge 5#64) fullState = false) := by
  have hfull : cmdReady (offerEdge 5#64) fullState = false := by
    simp [cmdReady, hasRoom, fullState]
  refine ⟨⟨{ State.reset with edges := [idleEdge], cmdOffer := some 5#64 }, by decide⟩,
    ⟨{ State.reset with edges := [offerEdge 6#64], cmdOffer := some 5#64 }, by decide⟩,
    ⟨_, rfl, by rw [rspValid, headDue_dueState]; rfl, rfl, rfl⟩,
    ⟨portActions (offerEdge 5#64) fullState, ?_, rfl, rfl, hfull⟩⟩
  have hnot : cmdTransfers (offerEdge 5#64) fullState = false := by simp [cmdTransfers, hfull]
  have hduty : brokenDuty (offerEdge 5#64) fullState = none := rfl
  have hrst : (offerEdge 5#64).rst = false := rfl
  simp [clockEdge, hduty, hnot, hrst]

/-- A full queue and an empty one. -/
theorem witness_BackPressureWhenTheQueueIsFull :
    Config.depth ≤ fullState.rspq.length ∧ idleEdge.rst = false ∧
      State.reset.rspq.length < Config.depth := ⟨fullState_full, rfl, by decide⟩

/-- Reset while a response is queued, a command is offered and another CFG is in force. -/
theorem witness_reset_edge_statements :
    ∃ (s : State) (e : Edge), s.edges = [e] ∧ e.rst = true ∧ s.codecCfg = 0x0001#16 ∧
      s.rspq = [⟨7#64, 0⟩] ∧ e.cmdValid = true :=
  ⟨{ State.reset with
      codecCfg := 0x0001#16
      rspq := [⟨7#64, 0⟩]
      edges := [{ offerEdge 5#64 with rst := true }] },
    { offerEdge 5#64 with rst := true }, by decide⟩

theorem witness_NothingTransfersDuringReset : ({ takingEdge with rst := true } : Edge).rst = true :=
  rfl

/-- An idle edge at a state that holds a response. -/
theorem witness_IdleEdgeKeepsConfigurationAndQueue :
    idleEdge.rst = false ∧ brokenDuty idleEdge (dueState 7#64) = none ∧
      cmdTransfers idleEdge (dueState 7#64) = false ∧
      rspTransfers idleEdge (dueState 7#64) = false ∧ State.reset.edges = [] :=
  ⟨rfl, rfl, rfl, by simp [rspTransfers, idleEdge], rfl⟩

/-! ### Runs -/

/-- An edge at which the host offers nothing goes on, and no offer is open after it. -/
theorem clockEdge_without_offer (e : Edge) (s : State) (hrst : e.rst = false)
    (hval : e.cmdValid = false) (hoffer : s.cmdOffer = none) :
    ∃ t, clockEdge e s = .next t ∧ t.cmdOffer = none := by
  have hduty : brokenDuty e s = none := by simp [brokenDuty, hoffer]
  refine ⟨portActions e s, by simp [clockEdge, hrst, hduty, cmdTransfers, hval], ?_⟩
  simp [portActions, ageQueue, responsePort, noteOffer, hval]
  split
  · simp only [deliverHead]; split <;> rfl
  · rfl

/-- So a run of such edges goes on. -/
theorem runEdges_without_offer (es : List Edge)
    (hes : ∀ e ∈ es, e.rst = false ∧ e.cmdValid = false) :
    ∀ s : State, s.cmdOffer = none → ∃ t, runEdges es s = .next t := by
  induction es with
  | nil => intro s _; exact ⟨s, rfl⟩
  | cons e es ih =>
    intro s hs
    obtain ⟨t, ht, hoff⟩ := clockEdge_without_offer e s (hes e (by simp)).1 (hes e (by simp)).2 hs
    obtain ⟨u, hu⟩ := ih (fun e' he' => hes e' (by simp [he'])) t hoff
    exact ⟨u, by simp [runEdges, ht, hu]⟩

/-- `LAT - 1` edges, the most the statement speaks of. -/
theorem witness_NoResponseIsDeliveredBeforeLat :
    ∃ (es : List Edge) (s t : State), (∀ e ∈ es, e.rst = false) ∧
      s.rspq = [⟨6#64, 0⟩] ++ [⟨7#64, 0⟩] ∧ es.length < Config.lat ∧
      es.length + 1 = Config.lat ∧ runEdges es s = .next t := by
  obtain ⟨t, ht⟩ := runEdges_without_offer (List.replicate Config.latPred takingEdge)
    (by intro e he; rw [List.eq_of_mem_replicate he]; exact ⟨rfl, rfl⟩)
    { State.reset with rspq := [⟨6#64, 0⟩, ⟨7#64, 0⟩] } rfl
  exact ⟨_, _, t, by intro e he; rw [List.eq_of_mem_replicate he]; rfl, rfl,
    by simp [Config.lat], by simp [Config.lat], ht⟩

/-- The premises of the invariant statements: the invariants at reset, with a CFG to run. -/
theorem witness_StepKeepsTheInvariants :
    ∃ s t : State, s.CfgReservedZero ∧ s.QueueBounded ∧ s.RaisedIsDue ∧ s.ResponsesLegal ∧
      s.InOrder ∧ step s = .next t ∧ t.codecCfg = 0x2A01#16 := by
  obtain ⟨t, ht⟩ := show ∃ t, step { State.reset with edges := [offerEdge 0x3000000000002A01#64] } =
    .next t from ⟨_, rfl⟩
  refine ⟨{ State.reset with edges := [offerEdge 0x3000000000002A01#64] }, t, ?_, Nat.zero_le _,
    nofun, nofun, ⟨State.reset, rfl, rfl, rfl⟩, ht, ?_⟩
  · show (0x3D02#16).extractLsb' 2 6 = 0#6
    decide
  · cases ht
    decide

/-- A CFG, then an edge at which nothing transfers, from reset. -/
theorem witness_PortRunsAreTransactionRuns :
    ∃ (es : List Edge) (t : State), core.run 2 { State.reset with edges := es } = .next t ∧
      es.length = 2 :=
  ⟨[offerEdge 0x3000000000000001#64, idleEdge], _, rfl, rfl⟩

/-- A session with nothing to do has ended. -/
theorem witness_sessionEnded : sessionEnded State.reset = true := rfl

/-! ### Messages -/

/-- The empty text and one of 4 symbols, with padding symbols after it. -/
theorem witness_ExcessPaddingIsTolerated :
    ([] : List Symbol).length % 4 = 0 ∧ [0x41#8, 0x41#8, 0x41#8, 0x41#8].length % 4 = 0 ∧
      ∀ x ∈ [0x3D#8, 0x3D#8, 0x80#8], decLut (cfgAlpha (readCfg State.reset)) x = none := by decide

/-- The reset configuration, and one with no padding and PADC an alphabet symbol. -/
theorem witness_DecodingUndoesEncoding :
    (cfgPen (readCfg State.reset) = true ∧
      decLut (cfgAlpha (readCfg State.reset)) (cfgPadc (readCfg State.reset)) = none) ∧
      cfgPen (readCfg (configured 0x4100#16)) = false := by decide

/-- Padded, unpadded and decoding configurations of one alphabet. -/
theorem witness_PaddingIsCosmeticForDecoding :
    cfgAlpha (readCfg (configured 0x2A03#16)) = cfgAlpha (readCfg (configured 0x0001#16)) ∧
      cfgAlpha (readCfg (configured 0x2A03#16)) = cfgAlpha (readCfg (configured 0xFF01#16)) ∧
      cfgPen (readCfg (configured 0x2A03#16)) = true ∧
      cfgPen (readCfg (configured 0x0001#16)) = false ∧
      decLut (cfgAlpha (readCfg (configured 0x2A03#16))) (cfgPadc (readCfg (configured 0x2A03#16))) =
        none := by decide

/-- Padding arguments of 0, 1 and 2 symbols. -/
theorem witness_EntryPointsGiveTheSourcesResults :
    ([] : List Symbol).length ≤ 1 ∧ [0x3D#8].length ≤ 1 ∧ 2 ≤ [0x3D#8, 0x3D#8].length := by decide

/-! ### Liveness -/

theorem fairChoices_constant (e : Edge) (hv : e.validChoice = true) (hr : e.readyChoice = true) :
    FairChoices fun _ => e := ⟨fun n => ⟨n, le_rfl, hv⟩, fun n => ⟨n, le_rfl, hr⟩⟩

/-- A host that takes responses for ever, and a queued response. -/
theorem witness_QueuedResponsesAreEventuallyDelivered :
    FairChoices (fun _ => takingEdge) ∧ takingEdge.rst = false ∧ takingEdge.rspReady = true ∧
      queuedWords (dueState 7#64) = [7#64] ∧
      ∀ n, ∃ t, afterEdges (fun _ => takingEdge) n (dueState 7#64) = .next t := by
  refine ⟨fairChoices_constant _ rfl rfl, rfl, rfl, rfl, fun n => ?_⟩
  refine runEdges_without_offer _ ?_ _ rfl
  intro e he
  obtain ⟨_, _, rfl⟩ := List.mem_map.1 he
  exact ⟨rfl, rfl⟩

/-- A host that offers one command for ever and takes responses, at a full queue. -/
theorem witness_OfferedCommandIsEventuallyAccepted :
    FairChoices (fun _ => { takingEdge with cmdValid := true, cmdData := 5#64 }) ∧
      fullState.cmdOffer = none ∧
      ({ takingEdge with cmdValid := true, cmdData := 5#64 } : Edge).rspReady = true :=
  ⟨fairChoices_constant _ rfl rfl, rfl, rfl⟩

/-- A full queue, and a host that offers nothing and takes nothing. -/
theorem witness_FullQueueBlocksAHostThatTakesNothing :
    ∃ (es : List Edge) (t : State), Config.depth ≤ fullState.rspq.length ∧ es.length = 2 ∧
      (∀ e ∈ es, e.rst = false ∧ e.rspReady = false) ∧ runEdges es fullState = .next t := by
  obtain ⟨t, ht⟩ := runEdges_without_offer [idleEdge, idleEdge] (by decide) fullState rfl
  exact ⟨_, t, fullState_full, rfl, by decide, ht⟩

end Sys2Proof.Tests
end

section
/-! The alphabet tables (10_state.md R28 to R30): the symbol of every value, and the reverse table
as the inverse of the forward one. -/

namespace Sys2Proof.Machine

/-! ## The forward table -/

/-- R28, entry by entry. -/
theorem encLut_standard_toNat (v : Sextet) :
    (encLut .standard v).toNat =
      if v.toNat < 26 then 0x41 + v.toNat
      else if v.toNat < 52 then 0x61 + (v.toNat - 26)
      else if v.toNat < 62 then 0x30 + (v.toNat - 52)
      else if v.toNat = 62 then 0x2B else 0x2F := by
  revert v; decide

/-- R29, entry by entry: only the last two entries differ from the standard table's. -/
theorem encLut_urlSafe_toNat (v : Sextet) :
    (encLut .urlSafe v).toNat =
      if v.toNat < 62 then (encLut .standard v).toNat
      else if v.toNat = 62 then 0x2D else 0x5F := by
  revert v; decide

/-- Settles O8: both tables, each checked at its 64 entries. -/
theorem alphabetsAreTheTwoTables : Obligations.AlphabetsAreTheTwoTables :=
  fun v => ⟨encLut_standard_toNat v, encLut_urlSafe_toNat v⟩

/-! ## The reverse table -/

/-- No symbol stands twice in a table. -/
theorem encTable_nodup (al : Alphabet) : (encTable al).Nodup := by cases al <;> decide

/-- The search of R30 finds the value of each symbol: an earlier hit would be a repeated symbol. -/
theorem decLut_encLut (al : Alphabet) (v : Sextet) : decLut al (encLut al v) = some v := by
  have hv : v.toNat < (encTable al).length := by rw [encTable_length]; exact v.isLt
  have hfind : (encTable al).findIdx? (· == encLut al v) = some v.toNat := by
    rw [List.findIdx?_eq_some_iff_getElem]
    refine ⟨hv, beq_self_eq_true _, fun j hj hsame => ?_⟩
    have : j = v.toNat := (encTable_nodup al).getElem_inj_iff.1 (eq_of_beq hsame)
    omega
  rw [decLut, hfind, Option.map_some, BitVec.ofNat_toNat, BitVec.setWidth_eq]

/-- A hit of the search is an entry of the table. -/
theorem encLut_of_decLut {al : Alphabet} {x : Symbol} {v : Sextet} (h : decLut al x = some v) :
    encLut al v = x := by
  obtain ⟨i, hfind, rfl⟩ := Option.map_eq_some_iff.1 h
  obtain ⟨hi, hhit, _⟩ := List.findIdx?_eq_some_iff_getElem.1 hfind
  have hv : (BitVec.ofNat 6 i).toNat = i :=
    Nat.mod_eq_of_lt (by rwa [encTable_length] at hi)
  simpa [encLut, hv] using hhit

theorem decLut_eq_some_iff (al : Alphabet) (x : Symbol) (v : Sextet) :
    decLut al x = some v ↔ encLut al v = x :=
  ⟨encLut_of_decLut, fun h => h ▸ decLut_encLut al v⟩

theorem decLut_eq_none_iff (al : Alphabet) (x : Symbol) :
    decLut al x = none ↔ ∀ v, encLut al v ≠ x := by
  simp only [Option.eq_none_iff_forall_ne_some, ne_eq, decLut_eq_some_iff]

/-- The padding symbol `=` is in neither alphabet. -/
theorem encLut_ne_equalsSign (al : Alphabet) (v : Sextet) : encLut al v ≠ 0x3D#8 := by
  revert v; cases al <;> decide

/-- Settles O9: a hit is an entry, and every entry is found since no symbol stands twice. -/
theorem reverseTableInvertsTheAlphabet : Obligations.ReverseTableInvertsTheAlphabet :=
  decLut_eq_some_iff

end Sys2Proof.Machine
end

section
/-! DEC and the padding (10_state.md R32). -/

namespace Sys2Proof.Machine

/-- Of the configuration DEC reads ALPHA alone. -/
theorem exec_dec_eq (n : BitVec 3) (w x y z : Symbol) (s : State) :
    exec (.dec n w x y z) s = .next (respond (decResponse (cfgAlpha (readCfg s)) n w x y z) s) :=
  exec_eq (.dec n w x y z) s

/-- Settles O24: the response is a function of ALPHA and the word, and the reverse table has no
value for a byte outside the alphabet. -/
theorem decDoesNotReadThePadding : Obligations.DecDoesNotReadThePadding := by
  refine ⟨fun n w x y z s s' _ _ halpha => ?_, fun al x => (decLut_eq_none_iff al x).2,
    fun al => (decLut_eq_none_iff al _).2 (encLut_ne_equalsSign al)⟩
  refine ⟨decResponse (cfgAlpha (readCfg s)) n w x y z, exec_dec_eq n w x y z s, ?_⟩
  rw [halpha]
  exact exec_dec_eq n w x y z s'

end Sys2Proof.Machine
end

section
/-! The invariants of the block's two registers, `CODEC_CFG` and `RSPQ` (10_state.md R27, R35). -/

namespace Sys2Proof.Machine

/-- The step case of an invariant, packaged once: what does not read the listed edges, holds after a
reset, and is kept by the ports and by an accepted word executed on what they leave, is kept by
every step. -/
theorem step_preserves {P : State → Prop}
    (edges : ∀ (s : State) (es : List Edge), P s → P { s with edges := es })
    (reset : ∀ s : State, P (resetEdge s))
    (ports : ∀ (e : Edge) (s : State), P s → P (portActions e s))
    (accept : ∀ (e : Edge) (s : State), P s → cmdTransfers e s = true →
      P (respond (wordResponse e.cmdData (readCfg s))
        (wordConfigured e.cmdData (noteAccepted e.cmdData (portActions e s)))))
    {s t : State} (hs : P s) (h : step s = .next t) : P t := by
  obtain ⟨_, rfl⟩ | ⟨e, rest, _, hedge⟩ := step_cases h
  · exact hs
  have hs' := edges s rest hs
  cases hr : e.rst with
  | true =>
    obtain ⟨_, rfl⟩ | ⟨hr', _⟩ | ⟨hr', _⟩ := clockEdge_cases hedge
    · exact reset _
    all_goals simp [hr] at hr'
  | false =>
    obtain ⟨_, ⟨hc, rfl⟩ | ⟨_, rfl⟩⟩ := clockEdge_without_reset hedge hr
    · exact accept e _ hs' hc
    · exact ports e _ hs'

/-! ## Bits 7:2 of `CODEC_CFG` -/

/-- The mask of R27 clears bits 7:2. -/
theorem extractLsb'_and_cfgMask (v : BitVec 16) : (v &&& cfgMask).extractLsb' 2 6 = 0#6 := by
  have hmask : cfgMask.extractLsb' 2 6 = 0#6 := by decide
  rw [BitVec.extractLsb'_and, hmask, BitVec.and_zero]

/-- Only CFG writes `CODEC_CFG`, and it writes through the mask. -/
theorem wordConfigured_keeps_cfgReservedZero (w : CmdWord) {s : State} (hs : s.CfgReservedZero) :
    (wordConfigured w s).CfgReservedZero := by
  unfold wordConfigured
  cases decode w with
  | error why => exact hs
  | ok i =>
    cases i with
    | cfg padc pen alpha => exact extractLsb'_and_cfgMask (cfgImage padc pen alpha)
    | elen p len => exact hs
    | dlen len => exact hs
    | enc n a b c => exact hs
    | dec n w x y z => exact hs
    | rdcfg => exact hs

theorem portActions_keeps_cfgReservedZero (e : Edge) {s : State} (hs : s.CfgReservedZero) :
    (portActions e s).CfgReservedZero := by
  rw [State.CfgReservedZero, portActions_codecCfg]
  exact hs

/-- Settles O42: a reset writes 0x3D02, the ports write nothing, and a word writes through the mask
or not at all. -/
theorem stepKeepsReservedConfigurationBitsZero :
    Obligations.StepKeepsReservedConfigurationBitsZero := by
  intro s t
  refine step_preserves ?edges ?reset ?ports ?accept
  case edges => exact fun s es hs => hs
  case reset => exact fun s => show (0x3D02#16).extractLsb' 2 6 = 0#6 by decide
  case ports => exact fun e s hs => portActions_keeps_cfgReservedZero e hs
  case accept =>
    exact fun e s hs _ => wordConfigured_keeps_cfgReservedZero e.cmdData
      (portActions_keeps_cfgReservedZero e hs)

/-! ## The length of `RSPQ` -/

/-- The ports only take from RSPQ. -/
theorem length_rspq_portActions_le (e : Edge) (s : State) :
    (portActions e s).rspq.length ≤ s.rspq.length := by
  cases h : rspTransfers e s with
  | true =>
    obtain ⟨q, rest, hq, _⟩ := rspTransfers_head h
    obtain ⟨hrspq, _, _⟩ := portActions_of_transfer h hq
    simp [hrspq, hq]
  | false =>
    obtain ⟨hrspq, _, _⟩ := portActions_of_no_transfer h
    simp [hrspq]

/-- A command transfers only where RSPQ has room (20_memory.md R54). -/
theorem length_rspq_lt_of_cmdTransfers {e : Edge} {s : State} (h : cmdTransfers e s = true) :
    s.rspq.length < Config.depth := by
  simp only [cmdTransfers, cmdReady, hasRoom, Bool.and_eq_true, decide_eq_true_eq] at h
  obtain ⟨_, _, hroom⟩ := h
  exact hroom

/-- Settles O43: the ports do not lengthen RSPQ, and the one response of an accepted word finds
room. -/
theorem stepKeepsTheQueueBounded : Obligations.StepKeepsTheQueueBounded := by
  intro s t
  refine step_preserves ?edges ?reset ?ports ?accept
  case edges => exact fun s es hs => hs
  case reset => exact fun s => Nat.zero_le Config.depth
  case ports => exact fun e s hs => (length_rspq_portActions_le e s).trans hs
  case accept =>
    intro e s _ hc
    have hroom := length_rspq_lt_of_cmdTransfers hc
    have hports := length_rspq_portActions_le e s
    simp only [State.QueueBounded, respond_rspq, wordConfigured_rspq, noteAccepted_rspq,
      List.length_append, List.length_singleton]
    omega

end Sys2Proof.Machine
end

section
/-! The transaction-level machine (20_memory.md R53): a list of words always runs to its end, the
last CFG among them governs `CODEC_CFG` (R50), and the clocked block answers as that machine
(R50, R57). -/

namespace Sys2Proof.Machine

/-! ## Words accepted one after another -/

/-- The state a word's acceptance gives (20_memory.md R53): the value of `acceptWord`. -/
def accepting (w : CmdWord) (s : State) : State :=
  respond (wordResponse w (readCfg s)) (wordConfigured w (noteAccepted w s))

theorem acceptWord_eq_accepting (w : CmdWord) (s : State) :
    acceptWord w s = .next (accepting w s) := acceptWord_eq w s

@[simp] theorem accepting_accepted (w : CmdWord) (s : State) :
    (accepting w s).accepted = s.accepted ++ [w] := by simp [accepting]

@[simp] theorem accepting_delivered (w : CmdWord) (s : State) :
    (accepting w s).delivered = s.delivered := by simp [accepting]

@[simp] theorem queuedWords_accepting (w : CmdWord) (s : State) :
    queuedWords (accepting w s) = queuedWords s ++ [wordResponse w (readCfg s)] := by
  simp [accepting]

@[simp] theorem readCfg_accepting (w : CmdWord) (s : State) :
    readCfg (accepting w s) = configAfter w (readCfg s) := by
  rw [accepting, readCfg_respond, readCfg_wordConfigured]
  rfl

/-- What an acceptance leaves in `CODEC_CFG` depends on the old value alone. -/
theorem accepting_codecCfg_congr (w : CmdWord) {s s' : State} (h : s.codecCfg = s'.codecCfg) :
    (accepting w s).codecCfg = (accepting w s').codecCfg :=
  wordConfigured_codecCfg w (s := noteAccepted w s) (s' := noteAccepted w s') h

/-- No word stops the machine, and each leaves `configAfter` of what it found. -/
theorem runWords_total (ws : List CmdWord) (s : State) :
    ∃ t, runWords ws s = .next t ∧
      readCfg t = ws.foldl (fun g w => configAfter w g) (readCfg s) := by
  induction ws generalizing s with
  | nil => exact ⟨s, rfl, rfl⟩
  | cons w ws ih =>
    obtain ⟨t, hrun, hcfg⟩ := ih (accepting w s)
    refine ⟨t, (runWords_cons w ws s).trans hrun, ?_⟩
    rw [hcfg, readCfg_accepting, List.foldl_cons]

/-- Settles O28: `configAfter` is the image of a CFG and keeps the value for every other word. -/
theorem lastCfgGoverns : Obligations.LastCfgGoverns := by
  intro ws s
  obtain ⟨t, hrun, hcfg⟩ := runWords_total ws s
  refine ⟨t, hrun, hcfg.trans ?_⟩
  congr 1
  funext g w
  unfold configAfter
  cases decode w with
  | error why => rfl
  | ok i => cases i <;> rfl

/-! ## The ordering model as an invariant -/

/-- One word more, on both sides of the simulation: the transaction-level machine holds the same
`CODEC_CFG`, so it gives the same response and the same next `CODEC_CFG`. -/
theorem inOrder_accepting (w : CmdWord) {s : State} (hs : s.InOrder) : (accepting w s).InOrder := by
  obtain ⟨t, hrun, hcfg, hwords⟩ := hs
  have hread : readCfg t = readCfg s := by rw [readCfg, readCfg, hcfg]
  refine ⟨accepting w t, ?_, accepting_codecCfg_congr w hcfg, ?_⟩
  · rw [accepting_accepted, runWords_append _ _ _ _ hrun, runWords_cons]
    rfl
  · simp [hwords, hread]

/-- The ports accept nothing and only pass responses from the queue to the delivered ones. -/
theorem inOrder_portActions (e : Edge) {s : State} (hs : s.InOrder) :
    (portActions e s).InOrder := by
  unfold State.InOrder
  rw [portActions_accepted, portActions_codecCfg, delivered_append_queued_portActions]
  exact hs

theorem inOrder_resetEdge (s : State) : (resetEdge s).InOrder := ⟨State.reset, rfl, rfl, rfl⟩

theorem readCfg_portActions (e : Edge) (s : State) : readCfg (portActions e s) = readCfg s := by
  rw [readCfg, readCfg, portActions_codecCfg]

/-- Settles O46: a reset empties both records, the ports keep the order, and an accepted word keeps
the two machines in step. -/
theorem stepKeepsAcceptanceOrder : Obligations.StepKeepsAcceptanceOrder := by
  intro s t
  refine step_preserves ?edges ?reset ?ports ?accept
  case edges => exact fun s es hs => hs
  case reset => exact inOrder_resetEdge
  case ports => exact fun e s hs => inOrder_portActions e hs
  case accept =>
    intro e s hs _
    have := inOrder_accepting e.cmdData (inOrder_portActions e hs)
    rwa [accepting, readCfg_portActions] at this

/-! ## Whole runs of the clocked block -/

/-- What every step of a machine keeps, every run of it keeps. -/
theorem run_preserves {M : Host.Core} {P : M.State → Prop}
    (hstep : ∀ s t, P s → M.step s = .next t → P t) (k : Nat) {s t : M.State} (hs : P s)
    (h : M.run k s = .next t) : P t := by
  induction k generalizing s with
  | zero => cases h; exact hs
  | succ k ih =>
    unfold Host.Core.run at h
    split at h
    case h_1 u hu => exact ih (hstep s u hs hu) h
    case h_2 => cases h
    case h_3 => cases h

theorem answers_of_runWords {ws : List CmdWord} {t : State}
    (h : runWords ws State.reset = .next t) : answers ws State.reset = queuedWords t := by
  rw [answers, h]
  rfl

theorem queuedWords_of_sessionEnded {s : State} (h : sessionEnded s = true) :
    queuedWords s = [] := by
  simp only [sessionEnded, Bool.and_eq_true, List.isEmpty_iff] at h
  obtain ⟨_, hempty⟩ := h
  rw [queuedWords, hempty, List.map_nil]

/-- Settles O47: the ordering model holds at the end of the run, and an ended session has nothing
left in the queue. -/
theorem portRunsAreTransactionRuns : Obligations.PortRunsAreTransactionRuns := by
  intro es k t hrun
  have hreset : State.InOrder { State.reset with edges := es } := ⟨State.reset, rfl, rfl, rfl⟩
  obtain ⟨u, hu, hcfg, hwords⟩ := run_preserves (M := core) stepKeepsAcceptanceOrder k hreset hrun
  have hread : readCfg t = readCfg u := by rw [readCfg, readCfg, hcfg]
  have hanswers := (answers_of_runWords hu).trans hwords
  refine ⟨u, hu, hread, ⟨queuedWords t, hanswers.symm⟩, fun hended => ?_⟩
  rw [hanswers, queuedWords_of_sessionEnded hended, List.append_nil, ← hread]
  rfl

end Sys2Proof.Machine
end

section
/-! The signals of the two ports and what an edge without reset does to every field of the state
(20_memory.md R42, R43, R54). -/

namespace Sys2Proof.Machine

/-! ## Signals -/

theorem headDue_iff {s : State} :
    headDue s = true ↔ ∃ q rest, s.rspq = q :: rest ∧ Config.lat ≤ q.age + 1 := by
  unfold headDue
  cases s.rspq with
  | nil => simp
  | cons q rest => simp

theorem rspValid_iff {e : Edge} {s : State} :
    rspValid e s = true ↔
      e.rst = false ∧ headDue s = true ∧ (s.rspRaised = true ∨ e.validChoice = true) := by
  simp [rspValid, and_assoc]

theorem rspTransfers_iff {e : Edge} {s : State} (hr : e.rst = false) :
    rspTransfers e s = true ↔ rspValid e s = true ∧ e.rspReady = true := by
  simp [rspTransfers, hr]

theorem rspTransfers_of_not_rspReady {e : Edge} (s : State) (h : e.rspReady = false) :
    rspTransfers e s = false := by simp [rspTransfers, h]

theorem cmdTransfers_iff {e : Edge} {s : State} (hr : e.rst = false) :
    cmdTransfers e s = true ↔ e.cmdValid = true ∧ cmdReady e s = true := by
  simp [cmdTransfers, hr]

theorem cmdReady_of_full {e : Edge} {s : State} (h : Config.depth ≤ s.rspq.length) :
    cmdReady e s = false := by simp [cmdReady, hasRoom, h]

theorem cmdReady_of_room {e : Edge} {s : State} (hr : e.rst = false)
    (h : s.rspq.length < Config.depth) : cmdReady e s = e.readyChoice := by
  simp [cmdReady, hasRoom, hr, h]

/-- Settles O35: a full queue forces `cmd_ready` to 0, and with room it is the edge's choice. -/
theorem backPressureWhenTheQueueIsFull : Obligations.BackPressureWhenTheQueueIsFull :=
  ⟨fun _ _ hfull => cmdReady_of_full hfull, fun e _ b hr hroom =>
    cmdReady_of_room (e := { e with readyChoice := b }) hr hroom⟩

/-! ## The state after an edge without reset -/

/-- The words accepted at an edge: the one offered, if it transfers. -/
def edgeWords (e : Edge) (s : State) : List CmdWord :=
  if cmdTransfers e s then [e.cmdData] else []

/-- The responses queued at an edge: one for each word accepted there. -/
def edgeResponses (e : Edge) (s : State) : List RspWord :=
  (edgeWords e s).map fun w => wordResponse w (readCfg s)

theorem edgeWords_of_transfer {e : Edge} {s : State} (h : cmdTransfers e s = true) :
    edgeWords e s = [e.cmdData] := by simp [edgeWords, h]

theorem edgeWords_of_no_transfer {e : Edge} {s : State} (h : cmdTransfers e s = false) :
    edgeWords e s = [] := by simp [edgeWords, h]

@[simp] theorem length_edgeResponses (e : Edge) (s : State) :
    (edgeResponses e s).length = (edgeWords e s).length := by simp [edgeResponses]

section
variable {e : Edge} {s t : State} (h : clockEdge e s = .next t) (hr : e.rst = false)
include h hr

theorem clockEdge_accepted : t.accepted = s.accepted ++ edgeWords e s := by
  obtain ⟨_, ⟨hc, rfl⟩ | ⟨hc, rfl⟩⟩ := clockEdge_without_reset h hr <;> simp [edgeWords, hc]

theorem clockEdge_rspq :
    t.rspq = (portActions e s).rspq ++ (edgeResponses e s).map fun r => ⟨r, 0⟩ := by
  obtain ⟨_, ⟨hc, rfl⟩ | ⟨hc, rfl⟩⟩ := clockEdge_without_reset h hr <;>
    simp [edgeResponses, edgeWords, hc]

theorem clockEdge_delivered : t.delivered = (portActions e s).delivered := by
  obtain ⟨_, ⟨_, rfl⟩ | ⟨_, rfl⟩⟩ := clockEdge_without_reset h hr <;> simp

theorem clockEdge_rspRaised : t.rspRaised = (portActions e s).rspRaised := by
  obtain ⟨_, ⟨_, rfl⟩ | ⟨_, rfl⟩⟩ := clockEdge_without_reset h hr <;> simp

theorem clockEdge_cmdOffer :
    t.cmdOffer = if e.cmdValid && !cmdReady e s then some e.cmdData else none := by
  obtain ⟨_, ⟨_, rfl⟩ | ⟨_, rfl⟩⟩ := clockEdge_without_reset h hr <;> simp

/-- The queue at an edge whose head transfers. -/
theorem clockEdge_rspq_of_transfer {q : Queued} {rest : List Queued}
    (hx : rspTransfers e s = true) (hq : s.rspq = q :: rest) :
    t.rspq = rest.map (fun q => { q with age := q.age + 1 }) ++
      (edgeResponses e s).map fun r => ⟨r, 0⟩ := by
  obtain ⟨hrspq, _, _⟩ := portActions_of_transfer hx hq
  rw [clockEdge_rspq h hr, hrspq]

theorem clockEdge_delivered_of_transfer {q : Queued} {rest : List Queued}
    (hx : rspTransfers e s = true) (hq : s.rspq = q :: rest) :
    t.delivered = s.delivered ++ [q.word] := by
  obtain ⟨_, hdel, _⟩ := portActions_of_transfer hx hq
  rw [clockEdge_delivered h hr, hdel]

/-- The queue at an edge at which no response transfers. -/
theorem clockEdge_rspq_of_no_transfer (hx : rspTransfers e s = false) :
    t.rspq = s.rspq.map (fun q => { q with age := q.age + 1 }) ++
      (edgeResponses e s).map fun r => ⟨r, 0⟩ := by
  obtain ⟨hrspq, _, _⟩ := portActions_of_no_transfer hx
  rw [clockEdge_rspq h hr, hrspq]

theorem clockEdge_delivered_of_no_transfer (hx : rspTransfers e s = false) :
    t.delivered = s.delivered := by
  obtain ⟨_, hdel, _⟩ := portActions_of_no_transfer hx
  rw [clockEdge_delivered h hr, hdel]

theorem clockEdge_rspRaised_of_no_transfer (hx : rspTransfers e s = false) :
    t.rspRaised = rspValid e s := by
  obtain ⟨_, _, hraised⟩ := portActions_of_no_transfer hx
  rw [clockEdge_rspRaised h hr, hraised]

/-- An edge only adds to the responses delivered and queued, at the end. -/
theorem clockEdge_delivered_append_queued :
    t.delivered ++ queuedWords t = s.delivered ++ queuedWords s ++ edgeResponses e s := by
  have hports := delivered_append_queued_portActions e s
  rw [clockEdge_delivered h hr, ← hports, queuedWords, clockEdge_rspq h hr]
  simp [queuedWords, Function.comp_def]

end

/-- Settles O33: the responses queued at the edge are `edgeResponses`, one exactly if a command
transfers, and the head leaves the queue exactly if it transfers. -/
theorem transfersFollowTheHandshake : Obligations.TransfersFollowTheHandshake := by
  refine ⟨fun e s t h hr => ⟨edgeResponses e s, ?accepted, ?notAccepted, ?delivered, ?kept⟩,
    ?bound, ?free⟩
  case accepted =>
    intro hc
    have hwords := edgeWords_of_transfer ((cmdTransfers_iff hr).2 hc)
    rw [clockEdge_accepted h hr, length_edgeResponses, hwords]
    exact ⟨rfl, rfl⟩
  case notAccepted =>
    intro hc
    rw [← cmdTransfers_iff hr, Bool.not_eq_true] at hc
    rw [clockEdge_accepted h hr, edgeResponses, edgeWords_of_no_transfer hc, List.append_nil]
    exact ⟨rfl, rfl⟩
  case delivered =>
    intro hx
    rw [← rspTransfers_iff hr] at hx
    obtain ⟨q, rest, hq, _⟩ := rspTransfers_head hx
    refine ⟨q, rest, hq, by simp [rspData, hq], clockEdge_delivered_of_transfer h hr hx hq, ?_⟩
    simp [queuedWords, clockEdge_rspq_of_transfer h hr hx hq, Function.comp_def]
  case kept =>
    intro hx
    rw [← rspTransfers_iff hr, Bool.not_eq_true] at hx
    refine ⟨clockEdge_delivered_of_no_transfer h hr hx, ?_⟩
    simp [queuedWords, clockEdge_rspq_of_no_transfer h hr hx, Function.comp_def]
  case bound =>
    intro e s hv
    obtain ⟨_, hdue, _⟩ := rspValid_iff.1 hv
    exact headDue_iff.1 hdue
  case free =>
    intro e s b hr hdue hraised
    simp [rspValid, hr, hdue, hraised]

/-! ## `rsp_valid` once raised -/

/-- A head that may be presented stays so while it waits: its age only grows. -/
theorem headDue_portActions {e : Edge} {s : State} (hx : rspTransfers e s = false)
    (hdue : headDue s = true) : headDue (portActions e s) = true := by
  obtain ⟨q, rest, hq, hlat⟩ := headDue_iff.1 hdue
  obtain ⟨hrspq, _, _⟩ := portActions_of_no_transfer hx
  rw [hq, List.map_cons] at hrspq
  exact headDue_iff.2 ⟨_, _, hrspq, Nat.le_succ_of_le hlat⟩

/-- What is queued behind the head does not matter to it. -/
theorem headDue_of_append {s t : State} {l : List Queued} (h : t.rspq = s.rspq ++ l)
    (hdue : headDue s = true) : headDue t = true := by
  obtain ⟨q, rest, hq, hlat⟩ := headDue_iff.1 hdue
  exact headDue_iff.2 ⟨q, rest ++ l, by rw [h, hq, List.cons_append], hlat⟩

/-- What the ports remember as raised is due, whatever was remembered before: a delivered head is
forgotten, and `rsp_valid` is 1 only for a head that is due. -/
theorem raisedIsDue_portActions (e : Edge) (s : State) : (portActions e s).RaisedIsDue := by
  intro hraised
  cases hx : rspTransfers e s with
  | true =>
    obtain ⟨q, rest, hq, _⟩ := rspTransfers_head hx
    obtain ⟨_, _, hforgotten⟩ := portActions_of_transfer hx hq
    rw [hforgotten] at hraised
    cases hraised
  | false =>
    obtain ⟨_, _, hvalid⟩ := portActions_of_no_transfer hx
    obtain ⟨_, hdue, _⟩ := rspValid_iff.1 (hvalid.symm.trans hraised)
    exact headDue_portActions hx hdue

/-- Settles O44: a reset forgets, the ports remember only what is due, and an accepted word queues
its response behind the head. -/
theorem stepKeepsRaisedResponsesDue : Obligations.StepKeepsRaisedResponsesDue := by
  intro s t
  refine step_preserves ?edges ?reset ?ports ?accept
  case edges => exact fun s es hs => hs
  case reset => exact fun s hraised => nomatch hraised
  case ports => exact fun e s _ => raisedIsDue_portActions e s
  case accept =>
    intro e s _ _ hraised
    exact headDue_of_append (l := [⟨wordResponse e.cmdData (readCfg s), 0⟩]) (by simp)
      (raisedIsDue_portActions e s (by simpa using hraised))

end Sys2Proof.Machine
end

section
/-! One edge and one step as a whole: the host's stability duty and its refusals (20_memory.md R43),
and the command that the step executes (R53). -/

namespace Sys2Proof.Machine

/-! ## The host's duty -/

theorem brokenDuty_of_no_offer {e : Edge} {s : State} (h : s.cmdOffer = none) :
    brokenDuty e s = none := by simp [brokenDuty, h]

theorem brokenDuty_of_kept {e : Edge} {s : State} {w : CmdWord} (h : s.cmdOffer = some w)
    (hv : e.cmdValid = true) (hw : e.cmdData = w) : brokenDuty e s = none := by
  simp [brokenDuty, h, hv, hw]

theorem brokenDuty_of_dropped {e : Edge} {s : State} {w : CmdWord} (h : s.cmdOffer = some w)
    (hv : e.cmdValid = false) : brokenDuty e s = some .hostDroppedOffer := by
  simp [brokenDuty, h, hv]

theorem brokenDuty_of_changed {e : Edge} {s : State} {w : CmdWord} (h : s.cmdOffer = some w)
    (hv : e.cmdValid = true) (hw : e.cmdData ≠ w) : brokenDuty e s = some .hostChangedOffer := by
  simp [brokenDuty, h, hv, hw]

/-- The duty is kept, or there is an offer that the host has dropped or changed. -/
theorem brokenDuty_cases (e : Edge) (s : State) :
    brokenDuty e s = none ∨ ∃ w, s.cmdOffer = some w ∧
      ((e.cmdValid = false ∧ brokenDuty e s = some .hostDroppedOffer) ∨
        (e.cmdValid = true ∧ e.cmdData ≠ w ∧ brokenDuty e s = some .hostChangedOffer)) := by
  cases hoffer : s.cmdOffer with
  | none => exact .inl (brokenDuty_of_no_offer hoffer)
  | some w =>
    cases hv : e.cmdValid with
    | false => exact .inr ⟨w, rfl, .inl ⟨rfl, brokenDuty_of_dropped hoffer hv⟩⟩
    | true =>
      by_cases hw : e.cmdData = w
      · exact .inl (brokenDuty_of_kept hoffer hv hw)
      · exact .inr ⟨w, rfl, .inr ⟨rfl, hw, brokenDuty_of_changed hoffer hv hw⟩⟩

/-! ## `clockEdge`, an equation per case -/

theorem clockEdge_of_reset {e : Edge} (s : State) (hr : e.rst = true) :
    clockEdge e s = .next (resetEdge s) := by simp [clockEdge, hr]

theorem clockEdge_of_broken {e : Edge} {s : State} {r : Refusal} (hr : e.rst = false)
    (hb : brokenDuty e s = some r) : clockEdge e s = .refused r := by simp [clockEdge, hr, hb]

theorem clockEdge_of_acceptance {e : Edge} {s : State} (hr : e.rst = false)
    (hb : brokenDuty e s = none) (hc : cmdTransfers e s = true) :
    clockEdge e s = acceptWord e.cmdData (portActions e s) := by simp [clockEdge, hr, hb, hc]

theorem clockEdge_of_no_acceptance {e : Edge} {s : State} (hr : e.rst = false)
    (hb : brokenDuty e s = none) (hc : cmdTransfers e s = false) :
    clockEdge e s = .next (portActions e s) := by simp [clockEdge, hr, hb, hc]

/-- An edge goes on when the host keeps its duty: an accepted word never stops it. -/
theorem clockEdge_goes_on {e : Edge} {s : State} (hr : e.rst = false)
    (hb : brokenDuty e s = none) : ∃ t, clockEdge e s = .next t := by
  cases hc : cmdTransfers e s with
  | true => exact ⟨_, (clockEdge_of_acceptance hr hb hc).trans (acceptWord_eq _ _)⟩
  | false => exact ⟨_, clockEdge_of_no_acceptance hr hb hc⟩

/-! ## The step -/

theorem step_of_no_edge {s : State} (h : s.edges = []) : step s = .next s := by
  rw [step, nextEdge, h]

theorem step_of_edge {s : State} {e : Edge} {rest : List Edge} (h : s.edges = e :: rest) :
    step s = clockEdge e { s with edges := rest } := by
  rw [step, nextEdge, h]

/-- Settles O32: with no edge nothing happens, a reset edge and an edge at which the duty is kept go
on, and the two ways to break it are refused. -/
theorem stepGoesOnUnlessTheHostBreaksItsDuty :
    Obligations.StepGoesOnUnlessTheHostBreaksItsDuty := by
  intro s
  cases hedges : s.edges with
  | nil => exact .inl ⟨s, step_of_no_edge hedges⟩
  | cons e rest =>
    rw [step_of_edge hedges]
    cases hr : e.rst with
    | true => exact .inl ⟨_, clockEdge_of_reset _ hr⟩
    | false =>
      obtain hkept | ⟨w, hoffer, ⟨hv, hb⟩ | ⟨hv, hw, hb⟩⟩ :=
        brokenDuty_cases e { s with edges := rest }
      · exact .inl (clockEdge_goes_on hr hkept)
      · exact .inr ⟨e, rest, w, rfl, hr, hoffer, .inl ⟨hv, clockEdge_of_broken hr hb⟩⟩
      · exact .inr ⟨e, rest, w, rfl, hr, hoffer, .inr ⟨hv, hw, clockEdge_of_broken hr hb⟩⟩

/-- Settles O34: a broken duty refuses the step; a head that waits keeps its word, stays due and is
remembered as raised; `rsp_valid` does not mention `rsp_ready`; and an offer that does not transfer
is remembered. -/
theorem offersStayStableUntilTheyTransfer : Obligations.OffersStayStableUntilTheyTransfer := by
  refine ⟨?refused, ?raised, fun e s b => rfl, ?offered⟩
  case refused =>
    intro s e rest w hedges hr hoffer
    rw [step_of_edge hedges]
    exact ⟨fun hv => clockEdge_of_broken hr (brokenDuty_of_dropped hoffer hv),
      fun hv hw => clockEdge_of_broken hr (brokenDuty_of_changed hoffer hv hw)⟩
  case raised =>
    intro e e' s t h hvalid hnotReady hr'
    obtain ⟨hr, hdue, _⟩ := rspValid_iff.1 hvalid
    have hx := rspTransfers_of_not_rspReady s hnotReady
    have hdue' := headDue_of_append (clockEdge_rspq h hr) (headDue_portActions hx hdue)
    have hraised := (clockEdge_rspRaised_of_no_transfer h hr hx).trans hvalid
    refine ⟨rspValid_iff.2 ⟨hr', hdue', .inl hraised⟩, ?_⟩
    obtain ⟨q, rest, hq, _⟩ := headDue_iff.1 hdue
    simp [rspData, clockEdge_rspq_of_no_transfer h hr hx, hq]
  case offered =>
    intro e s t h hr hv hnotReady
    simp [clockEdge_cmdOffer h hr, hv, hnotReady]

/-! ## The command a step executes -/

theorem executeWord_of_decode {w : CmdWord} {i : Instr} (h : decode w = .ok i) (s : State) :
    executeWord w s = exec i s := by rw [executeWord, h]

/-- Settles O30: the word transfers, so it is accepted at the state the ports leave. -/
theorem stepExecutesTheDecodedCommand : Obligations.StepExecutesTheDecodedCommand := by
  intro s e rest i hedges hr hduty hv hready hdecode
  rw [step_of_edge hedges,
    clockEdge_of_acceptance (s := { s with edges := rest }) hr hduty
      ((cmdTransfers_iff hr).2 ⟨hv, hready⟩),
    acceptWord, executeWord_of_decode hdecode]

/-! ## `withFetchWord` -/

theorem hasRoom_makeRoom (s : State) : hasRoom (makeRoom s) = true := by
  unfold makeRoom
  split
  · assumption
  · exact decide_eq_true (Nat.succ_pos Config.depthPred)

@[simp] theorem makeRoom_codecCfg (s : State) : (makeRoom s).codecCfg = s.codecCfg := by
  unfold makeRoom; split <;> rfl

@[simp] theorem makeRoom_accepted (s : State) : (makeRoom s).accepted = s.accepted := by
  unfold makeRoom; split <;> rfl

theorem queuedWords_makeRoom (s : State) :
    queuedWords (makeRoom s) = queuedWords s ∨ queuedWords (makeRoom s) = [] := by
  unfold makeRoom
  split
  · exact .inl rfl
  · exact .inr rfl

/-- Where no response transfers the ports keep the words of the queue. -/
theorem queuedWords_portActions_of_no_transfer {e : Edge} {s : State}
    (hx : rspTransfers e s = false) : queuedWords (portActions e s) = queuedWords s := by
  simp [queuedWords, portActions_of_no_transfer hx, Function.comp_def]

theorem cmdReady_offerNext (w : CmdWord) (s : State) :
    cmdReady (offerEdge w) (offerNext w s) = true := hasRoom_makeRoom s

/-- Settles O31: the placed word transfers at the next step, at which the host takes no response, so
the queue is the one `makeRoom` leaves. -/
theorem placedWordRunsAtTheNextStep : Obligations.PlacedWordRunsAtTheNextStep := by
  intro s w i hdecode
  have hok : decode (tableWord 64 w) = .ok i := by
    cases hd : decode (tableWord 64 w) with
    | ok j => simpa [decodeTableWord, hd, Except.toOption] using hdecode
    | error why => simp [decodeTableWord, hd, Except.toOption] at hdecode
  have hstep := stepExecutesTheDecodedCommand (s.withFetchWord 64 w) (offerEdge (tableWord 64 w))
    s.edges i rfl rfl rfl rfl (cmdReady_offerNext _ s) hok
  refine ⟨makeRoom_codecCfg s, _, _, hstep, exec_eq i _, ?_, ?_, ?_, ?_⟩
  · rw [noteAccepted_codecCfg, portActions_codecCfg]
    exact makeRoom_codecCfg s
  · rw [noteAccepted_accepted, portActions_accepted]
    exact congrArg (· ++ [tableWord 64 w]) (makeRoom_accepted s)
  · rw [noteAccepted_edges, portActions_edges]
  · rw [queuedWords_noteAccepted,
      queuedWords_portActions_of_no_transfer (rspTransfers_of_not_rspReady _ rfl)]
    exact queuedWords_makeRoom s

end Sys2Proof.Machine
end

section
/-! Runs of edges without reset: when a response may leave (20_memory.md R42) and what a host that
takes nothing brings about (70_reset_and_hazards.md R158). -/

namespace Sys2Proof.Machine

theorem runEdges_cons_cases {e : Edge} {es : List Edge} {s t : State}
    (h : runEdges (e :: es) s = .next t) :
    ∃ u, clockEdge e s = .next u ∧ runEdges es u = .next t := by
  unfold runEdges at h
  split at h
  case h_1 u hu => exact ⟨u, hu, h⟩
  case h_2 => cases h
  case h_3 => cases h

/-! ## The bound of `LAT` -/

/-- A response of age `a` with `before` ahead of it: while its age stays under `LAT - 1` it is not
delivered, so no more than `before` are. -/
theorem delivered_length_le_of_young {r : RspWord} (es : List Edge) {s t : State} {a : Nat}
    {before after : List Queued} (hr : ∀ e ∈ es, e.rst = false)
    (hq : s.rspq = before ++ ⟨r, a⟩ :: after) (hage : a + es.length < Config.lat)
    (hrun : runEdges es s = .next t) :
    t.delivered.length ≤ s.delivered.length + before.length := by
  induction es generalizing s a before after with
  | nil => cases hrun; exact Nat.le_add_right _ _
  | cons e es ih =>
    obtain ⟨u, hedge, hrest⟩ := runEdges_cons_cases hrun
    have hre : e.rst = false := hr e List.mem_cons_self
    have hres : ∀ e' ∈ es, e'.rst = false := fun e' he' => hr e' (List.mem_cons_of_mem e he')
    rw [List.length_cons] at hage
    have hage' : a + 1 + es.length < Config.lat := by omega
    cases hx : rspTransfers e s with
    | false =>
      have hu := clockEdge_rspq_of_no_transfer hedge hre hx
      rw [hq, List.map_append, List.map_cons, List.append_assoc, List.cons_append] at hu
      have hle := ih hres hu hage' hrest
      rwa [clockEdge_delivered_of_no_transfer hedge hre hx, List.length_map] at hle
    | true =>
      cases before with
      | nil =>
        obtain ⟨q, rest, hhead, hdue⟩ := rspTransfers_head hx
        obtain ⟨rfl, _⟩ := List.cons.inj (hhead.symm.trans hq)
        have : Config.lat ≤ a + 1 := hdue
        omega
      | cons b before =>
        have hu := clockEdge_rspq_of_transfer hedge hre hx hq
        rw [List.append_eq, List.map_append, List.map_cons, List.append_assoc,
          List.cons_append] at hu
        have hle := ih hres hu hage' hrest
        rw [clockEdge_delivered_of_transfer hedge hre hx hq, List.length_append,
          List.length_singleton, List.length_map] at hle
        rw [List.length_cons]
        omega

/-- Settles O40: a response just queued has age 0 and nothing behind it. -/
theorem noResponseIsDeliveredBeforeLat : Obligations.NoResponseIsDeliveredBeforeLat := by
  intro es s t before r hr hq hlen hrun
  exact delivered_length_le_of_young es hr hq (by omega) hrun

/-! ## A full queue and a host that takes nothing -/

@[simp] theorem length_queuedWords (s : State) : (queuedWords s).length = s.rspq.length := by
  simp [queuedWords]

/-- A full queue accepts nothing, and a host that is not ready takes nothing. -/
theorem clockEdge_of_full {e : Edge} {s t : State} (h : clockEdge e s = .next t)
    (hr : e.rst = false) (hnotReady : e.rspReady = false) (hfull : Config.depth ≤ s.rspq.length) :
    t.accepted = s.accepted ∧ t.delivered = s.delivered ∧ queuedWords t = queuedWords s := by
  have hx := rspTransfers_of_not_rspReady s hnotReady
  have hc : cmdTransfers e s = false := by simp [cmdTransfers, cmdReady_of_full hfull]
  have hwords := edgeWords_of_no_transfer hc
  refine ⟨?_, clockEdge_delivered_of_no_transfer h hr hx, ?_⟩
  · rw [clockEdge_accepted h hr, hwords, List.append_nil]
  · simp [queuedWords, clockEdge_rspq_of_no_transfer h hr hx, edgeResponses, hwords,
      Function.comp_def]

/-- Settles O60: each edge leaves the queue as full as it was. -/
theorem fullQueueBlocksAHostThatTakesNothing :
    Obligations.FullQueueBlocksAHostThatTakesNothing := by
  intro es
  induction es with
  | nil => intro s t _ _ hrun; cases hrun; exact ⟨rfl, rfl, rfl⟩
  | cons e es ih =>
    intro s t hfull hes hrun
    obtain ⟨u, hedge, hrest⟩ := runEdges_cons_cases hrun
    obtain ⟨hr, hnotReady⟩ := hes e List.mem_cons_self
    obtain ⟨hacc, hdel, hwords⟩ := clockEdge_of_full hedge hr hnotReady hfull
    have hfull' : Config.depth ≤ u.rspq.length := by
      rwa [← length_queuedWords, hwords, length_queuedWords]
    obtain ⟨hacc', hdel', hwords'⟩ :=
      ih u t hfull' (fun e' he' => hes e' (List.mem_cons_of_mem e he')) hrest
    exact ⟨hacc'.trans hacc, hdel'.trans hdel, hwords'.trans hwords⟩

end Sys2Proof.Machine
end

section
/-! Liveness (20_memory.md R55, log 10): with fair choices and a host that takes every response, the
queue drains, and an offered command is accepted. -/

namespace Sys2Proof.Machine

/-! ## Endless runs -/

/-- `σ n` is the state before the edge `E n`, for every `n`. -/
def IsRun (E : Nat → Edge) (σ : Nat → State) : Prop :=
  ∀ n, clockEdge (E n) (σ n) = .next (σ (n + 1))

theorem runEdges_singleton (e : Edge) (s : State) : runEdges [e] s = clockEdge e s := by
  unfold runEdges
  cases clockEdge e s <;> rfl

theorem afterEdges_succ {E : Nat → Edge} {n : Nat} {s t : State}
    (h : afterEdges E n s = .next t) : afterEdges E (n + 1) s = clockEdge (E n) t := by
  rw [afterEdges, List.range_succ, List.map_append, runEdges_append _ _ _ _ h]
  exact runEdges_singleton (E n) t

/-- A schedule that goes on for ever has a run: the states `afterEdges` gives. -/
theorem exists_isRun {E : Nat → Edge} {s : State} (h : ∀ n, ∃ t, afterEdges E n s = .next t) :
    ∃ σ, σ 0 = s ∧ (∀ n, afterEdges E n s = .next (σ n)) ∧ IsRun E σ := by
  choose σ hσ using h
  have hstart : Host.Outcome.next s = .next (σ 0) := hσ 0
  injection hstart with hstart
  exact ⟨σ, hstart.symm, hσ, fun n => (afterEdges_succ (hσ n)).symm.trans (hσ (n + 1))⟩

theorem clockEdge_delivered_length_le {e : Edge} {s t : State} (h : clockEdge e s = .next t)
    (hr : e.rst = false) : s.delivered.length ≤ t.delivered.length := by
  cases hx : rspTransfers e s with
  | false => rw [clockEdge_delivered_of_no_transfer h hr hx]
  | true =>
    obtain ⟨q, rest, hq, _⟩ := rspTransfers_head hx
    simp [clockEdge_delivered_of_transfer h hr hx hq]

section
variable {E : Nat → Edge} {σ : Nat → State} (hrun : IsRun E σ) (hr : ∀ n, (E n).rst = false)
include hrun hr

theorem IsRun.delivered_length_mono {m n : Nat} (h : m ≤ n) :
    (σ m).delivered.length ≤ (σ n).delivered.length :=
  monotone_nat_of_le_succ (f := fun n => (σ n).delivered.length)
    (fun n => clockEdge_delivered_length_le (hrun n) (hr n)) h

/-- The responses there were at the start stay in front, in order. -/
theorem IsRun.start_stays_in_front (n : Nat) :
    (σ 0).delivered ++ queuedWords (σ 0) <+: (σ n).delivered ++ queuedWords (σ n) := by
  induction n with
  | zero => exact List.prefix_rfl
  | succ n ih =>
    rw [clockEdge_delivered_append_queued (hrun n) (hr n)]
    exact ih.trans (List.prefix_append _ _)

/-- A head grows older edge by edge until it is delivered. -/
theorem IsRun.head_waits {n : Nat} {q : Queued} {rest : List Queued}
    (hq : (σ n).rspq = q :: rest) (k : Nat) :
    (σ n).delivered.length < (σ (n + k)).delivered.length ∨
      ∃ rest', (σ (n + k)).rspq = ⟨q.word, q.age + k⟩ :: rest' := by
  induction k with
  | zero => exact .inr ⟨rest, hq⟩
  | succ k ih =>
    have hedge := hrun (n + k)
    have hre := hr (n + k)
    obtain hgone | ⟨rest', hq'⟩ := ih
    · exact .inl (hgone.trans_le (clockEdge_delivered_length_le hedge hre))
    cases hx : rspTransfers (E (n + k)) (σ (n + k)) with
    | true =>
      have hdel := clockEdge_delivered_of_transfer hedge hre hx hq'
      have hle := hrun.delivered_length_mono hr (Nat.le_add_right n k)
      left
      rw [← Nat.add_assoc, hdel, List.length_append, List.length_singleton]
      omega
    | false =>
      right
      have hnext := clockEdge_rspq_of_no_transfer hedge hre hx
      rw [hq'] at hnext
      exact ⟨_, hnext⟩

/-- Where `w` is the one word ever offered, `k` acceptances of it have added `k` responses. -/
theorem IsRun.accepted_eq_replicate {w : CmdWord} (hw : ∀ n, (E n).cmdData = w) (n : Nat) :
    ∃ k, (σ n).accepted = (σ 0).accepted ++ List.replicate k w ∧
      (σ n).delivered.length + (σ n).rspq.length =
        (σ 0).delivered.length + (σ 0).rspq.length + k := by
  induction n with
  | zero => exact ⟨0, by simp⟩
  | succ n ih =>
    obtain ⟨k, hacc, hcount⟩ := ih
    have hacc' := clockEdge_accepted (hrun n) (hr n)
    have hcount' := congrArg List.length (clockEdge_delivered_append_queued (hrun n) (hr n))
    simp only [List.length_append, length_queuedWords, length_edgeResponses] at hcount'
    cases hc : cmdTransfers (E n) (σ n) with
    | true =>
      have hwords := edgeWords_of_transfer hc
      refine ⟨k + 1, ?_, ?_⟩
      · rw [hacc', hacc, hwords, hw, List.replicate_succ', List.append_assoc]
      · rw [hcount', hwords, List.length_singleton]
        omega
    | false =>
      have hwords := edgeWords_of_no_transfer hc
      refine ⟨k, ?_, ?_⟩
      · rw [hacc', hacc, hwords, List.append_nil]
      · rw [hcount', hwords, List.length_nil]
        omega

/-! ## Progress -/

section
variable (hfair : FairChoices E) (hready : ∀ n, (E n).rspReady = true)
include hfair hready

/-- A queue that is not empty loses its head: from `LAT` edges on the head is due, and the block
goes on choosing to raise `rsp_valid`. -/
theorem IsRun.delivers_head {n : Nat} {q : Queued} {rest : List Queued}
    (hq : (σ n).rspq = q :: rest) :
    ∃ m, (σ n).delivered.length < (σ m).delivered.length := by
  obtain ⟨m, hm, hvalid⟩ := hfair.valid (n + Config.lat)
  obtain ⟨k, rfl⟩ := Nat.exists_eq_add_of_le ((Nat.le_add_right n Config.lat).trans hm)
  obtain hgone | ⟨rest', hq'⟩ := hrun.head_waits hr hq k
  · exact ⟨n + k, hgone⟩
  have hdue : headDue (σ (n + k)) = true :=
    headDue_iff.2 ⟨_, _, hq', show Config.lat ≤ q.age + k + 1 by omega⟩
  have hx : rspTransfers (E (n + k)) (σ (n + k)) = true :=
    (rspTransfers_iff (hr _)).2 ⟨rspValid_iff.2 ⟨hr _, hdue, .inr hvalid⟩, hready _⟩
  have hle := hrun.delivered_length_mono hr (Nat.le_add_right n k)
  refine ⟨n + k + 1, ?_⟩
  rw [clockEdge_delivered_of_transfer (hrun (n + k)) (hr _) hx hq', List.length_append,
    List.length_singleton]
  omega

/-- As many responses are delivered as were delivered and queued at the start. -/
theorem IsRun.delivers_start : ∃ m,
    (σ 0).delivered.length + (σ 0).rspq.length ≤ (σ m).delivered.length := by
  suffices h : ∀ j ≤ (σ 0).rspq.length, ∃ m,
      (σ 0).delivered.length + j ≤ (σ m).delivered.length from h _ le_rfl
  intro j
  induction j with
  | zero => exact fun _ => ⟨0, le_rfl⟩
  | succ j ih =>
    intro hj
    obtain ⟨m, hm⟩ := ih (by omega)
    cases hq : (σ m).rspq with
    | nil =>
      have hlen := (hrun.start_stays_in_front hr m).length_le
      simp only [List.length_append, length_queuedWords, hq, List.length_nil] at hlen
      exact ⟨m, by omega⟩
    | cons q rest =>
      obtain ⟨m', hm'⟩ := hrun.delivers_head hr hfair hready hq
      exact ⟨m', by omega⟩

end

end

/-- Settles O58: enough responses are delivered, and the first ones are those of the start. -/
theorem queuedResponsesAreEventuallyDelivered :
    Obligations.QueuedResponsesAreEventuallyDelivered := by
  intro E s hfair hhost hgoes
  obtain ⟨σ, rfl, hafter, hrun⟩ := exists_isRun hgoes
  choose hr hready using hhost
  obtain ⟨m, hm⟩ := hrun.delivers_start hr hfair hready
  refine ⟨m, σ m, hafter m, List.prefix_of_prefix_length_le (hrun.start_stays_in_front hr m)
    (List.prefix_append _ _) ?_⟩
  rw [List.length_append, length_queuedWords]
  exact hm

/-! ## An offered command -/

/-- A host that goes on offering `w` keeps its duty, so every edge goes on. -/
theorem clockEdge_keeps_offer {e : Edge} {s : State} {w : CmdWord} (hr : e.rst = false)
    (hv : e.cmdValid = true) (hw : e.cmdData = w) (hs : s.cmdOffer = none ∨ s.cmdOffer = some w) :
    ∃ t, clockEdge e s = .next t ∧ (t.cmdOffer = none ∨ t.cmdOffer = some w) := by
  have hduty : brokenDuty e s = none := by
    obtain hnone | hsome := hs
    · exact brokenDuty_of_no_offer hnone
    · exact brokenDuty_of_kept hsome hv hw
  obtain ⟨t, ht⟩ := clockEdge_goes_on hr hduty
  refine ⟨t, ht, ?_⟩
  rw [clockEdge_cmdOffer ht hr, hw]
  split
  · exact .inr rfl
  · exact .inl rfl

theorem afterEdges_keeps_offer {E : Nat → Edge} {s : State} {w : CmdWord}
    (hr : ∀ n, (E n).rst = false) (hv : ∀ n, (E n).cmdValid = true)
    (hw : ∀ n, (E n).cmdData = w) (hs : s.cmdOffer = none ∨ s.cmdOffer = some w) (n : Nat) :
    ∃ t, afterEdges E n s = .next t ∧ (t.cmdOffer = none ∨ t.cmdOffer = some w) := by
  induction n with
  | zero => exact ⟨s, rfl, hs⟩
  | succ n ih =>
    obtain ⟨t, ht, hoffer⟩ := ih
    rw [afterEdges_succ ht]
    exact clockEdge_keeps_offer (hr n) (hv n) (hw n) hoffer

/-- An empty queue has room, since `DEPTH` is at least 1. -/
theorem cmdReady_of_empty {e : Edge} {s : State} (hr : e.rst = false) (hq : s.rspq = []) :
    cmdReady e s = e.readyChoice :=
  cmdReady_of_room hr (by rw [hq]; exact Nat.succ_pos Config.depthPred)

/-- Settles O59: once the responses of the start are delivered, either the command has been accepted
meanwhile or RSPQ is empty, and stays so until the block chooses `cmd_ready` = 1. -/
theorem offeredCommandIsEventuallyAccepted : Obligations.OfferedCommandIsEventuallyAccepted := by
  intro E s w hfair hhost hoffer
  choose hr hrspReady hv hw using hhost
  have hgoes : ∀ n, ∃ t, afterEdges E n s = .next t := fun n =>
    (afterEdges_keeps_offer hr hv hw hoffer n).imp fun _ h => h.1
  obtain ⟨σ, rfl, hafter, hrun⟩ := exists_isRun hgoes
  obtain ⟨m, hdrained⟩ := hrun.delivers_start hr hfair hrspReady
  obtain ⟨p, hp, hchoice⟩ := hfair.ready m
  obtain ⟨k, hacc, hcount⟩ := hrun.accepted_eq_replicate hr hw p
  cases k with
  | succ k => exact ⟨p, σ p, hafter p, List.replicate k w, by rw [hacc]; simp [List.replicate_succ]⟩
  | zero =>
    have hmono := hrun.delivered_length_mono hr hp
    have hempty : (σ p).rspq = [] := List.length_eq_zero_iff.1 (by omega)
    have hc : cmdTransfers (E p) (σ p) = true :=
      (cmdTransfers_iff (hr p)).2 ⟨hv p, (cmdReady_of_empty (hr p) hempty).trans hchoice⟩
    refine ⟨p + 1, σ (p + 1), hafter (p + 1), [], ?_⟩
    rw [clockEdge_accepted (hrun p) (hr p), edgeWords_of_transfer hc, hw, hacc]
    simp

end Sys2Proof.Machine
end

section
/-! The fields of a command word (30_encoding.md R60 to R64, R70): what a decoded operand is, and
what an encoded command carries. -/

namespace Sys2Proof

/-- A bit's value, asked as an equation on numbers. -/
theorem getLsbD_eq_iff {w : Nat} (x : BitVec w) (i : Nat) (b : Bool) :
    x.getLsbD i = b ↔ x.toNat / 2 ^ i % 2 = b.toNat := by
  rw [← toNat_getLsbD]
  cases x.getLsbD i <;> cases b <;> simp

/-- A field of zeros, asked as an equation on numbers. -/
theorem extractLsb'_eq_zero_iff {w : Nat} (x : BitVec w) (i n : Nat) :
    x.extractLsb' i n = 0#n ↔ x.toNat / 2 ^ i % 2 ^ n = 0 := by
  rw [extractLsb'_eq_iff, BitVec.toNat_zero]

/-! ## Fields as quotients and remainders (R70) -/

theorem cntOf_toNat (C : CmdWord) : (cntOf C).toNat = C.toNat / 2 ^ 48 % 8 :=
  toNat_extractLsb'_eq C 48 3

theorem padBitOf_toNat (C : CmdWord) : (padBitOf C).toNat = C.toNat / 2 ^ 48 % 2 :=
  toNat_getLsbD C 48

theorem lenOf_toNat (C : CmdWord) : (lenOf C).toNat = C.toNat % 2 ^ 32 := by
  rw [lenOf, toNat_extractLsb'_eq, pow_zero, Nat.div_one]

theorem encByteOf_toNat (C : CmdWord) (i : Nat) :
    (encByteOf C i).toNat = C.toNat / 2 ^ (16 - 8 * i) % 256 := toNat_extractLsb'_eq C _ 8

theorem decSymbolOf_toNat (C : CmdWord) (i : Nat) :
    (decSymbolOf C i).toNat = C.toNat / 2 ^ (24 - 8 * i) % 256 := toNat_extractLsb'_eq C _ 8

theorem padcOf_toNat (C : CmdWord) : (padcOf C).toNat = C.toNat / 2 ^ 8 % 256 :=
  toNat_extractLsb'_eq C 8 8

theorem penOf_toNat (C : CmdWord) : (penOf C).toNat = C.toNat / 2 % 2 := toNat_getLsbD C 1

theorem alphaOf_bit_toNat (C : CmdWord) : (alphaOf C).bit.toNat = C.toNat % 2 := by
  rw [alphaOf, bit_alphabetOfBit, toNat_getLsbD, pow_zero, Nat.div_one]

theorem decodes_of_decode {C : CmdWord} {r : Except IllegalCause Instr} (h : decode C = r) :
    Decodes C r := h ▸ decode_cases C

/-- The opcode of a command is the high byte of every word that decodes to it. -/
theorem opcode_toNat_of_decode {C : CmdWord} {i : Instr} (h : decode C = .ok i) :
    i.opcode.toNat = C.toNat / 2 ^ 56 := by
  cases decodes_of_decode h with
  | elen hopc | dlen hopc | enc hopc | dec hopc | cfg hopc | rdcfg hopc => exact hopc.symm

/-- Settles O6: the decoder answers with the fields of the word, each a quotient and a remainder. -/
theorem operandsAreTheFieldsOfTheWord : Obligations.OperandsAreTheFieldsOfTheWord := by
  refine ⟨fun C i => opcode_toNat_of_decode, ?elen, ?dlen, ?enc, ?dec, ?cfg⟩
  case elen =>
    intro C p len h
    cases decodes_of_decode h with
    | elen => exact ⟨padBitOf_toNat C, lenOf_toNat C⟩
  case dlen =>
    intro C len h
    cases decodes_of_decode h with
    | dlen => exact lenOf_toNat C
  case enc =>
    intro C n a b c h
    cases decodes_of_decode h with
    | enc =>
      refine ⟨cntOf_toNat C, encByteOf_toNat C 0, encByteOf_toNat C 1, ?_⟩
      rw [encByteOf_toNat, pow_zero, Nat.div_one]
  case dec =>
    intro C n w x y z h
    cases decodes_of_decode h with
    | dec =>
      refine ⟨cntOf_toNat C, decSymbolOf_toNat C 0, decSymbolOf_toNat C 1,
        decSymbolOf_toNat C 2, ?_⟩
      rw [decSymbolOf_toNat, pow_zero, Nat.div_one]
  case cfg =>
    intro C padc pen alpha h
    cases decodes_of_decode h with
    | cfg => exact ⟨padcOf_toNat C, penOf_toNat C, alphaOf_bit_toNat C⟩

/-! ## The fields of an encoded command -/

theorem fields_encode_elen (p : Bool) (len : LenWord) :
    padBitOf (encode (.elen p len)) = p ∧ lenOf (encode (.elen p len)) = len := by
  have hnum := encode_elen_toNat p len
  have := p.toNat_le
  exact ⟨(getLsbD_eq_iff _ _ _).2 (by omega), (extractLsb'_eq_iff _ _ _ _).2 (by omega)⟩

theorem fields_encode_dlen (len : LenWord) : lenOf (encode (.dlen len)) = len := by
  have hnum := encode_dlen_toNat len
  exact (extractLsb'_eq_iff _ _ _ _).2 (by omega)

theorem fields_encode_enc (n : BitVec 3) (a b c : Byte) :
    cntOf (encode (.enc n a b c)) = n ∧ encByteOf (encode (.enc n a b c)) 0 = a ∧
      encByteOf (encode (.enc n a b c)) 1 = b ∧ encByteOf (encode (.enc n a b c)) 2 = c := by
  have hnum := encode_enc_toNat n a b c
  refine ⟨?_, ?_, ?_, ?_⟩ <;> exact (extractLsb'_eq_iff _ _ _ _).2 (by omega)

theorem fields_encode_dec (n : BitVec 3) (w x y z : Symbol) :
    cntOf (encode (.dec n w x y z)) = n ∧ decSymbolOf (encode (.dec n w x y z)) 0 = w ∧
      decSymbolOf (encode (.dec n w x y z)) 1 = x ∧ decSymbolOf (encode (.dec n w x y z)) 2 = y ∧
      decSymbolOf (encode (.dec n w x y z)) 3 = z := by
  have hnum := encode_dec_toNat n w x y z
  refine ⟨?_, ?_, ?_, ?_, ?_⟩ <;> exact (extractLsb'_eq_iff _ _ _ _).2 (by omega)

theorem fields_encode_cfg (padc : Symbol) (pen : Bool) (alpha : Alphabet) :
    padcOf (encode (.cfg padc pen alpha)) = padc ∧ penOf (encode (.cfg padc pen alpha)) = pen ∧
      alphaOf (encode (.cfg padc pen alpha)) = alpha := by
  have hnum := encode_cfg_toNat padc pen alpha
  have := pen.toNat_le
  have := alpha.bit.toNat_le
  have hbit : (encode (.cfg padc pen alpha)).getLsbD 0 = alpha.bit :=
    (getLsbD_eq_iff _ _ _).2 (by omega)
  refine ⟨(extractLsb'_eq_iff _ _ _ _).2 (by omega), (getLsbD_eq_iff _ _ _).2 (by omega), ?_⟩
  rw [alphaOf, hbit, alphabetOfBit_bit]

end Sys2Proof
end

section
/-! The decoder and the encoder as inverses of each other (30_encoding.md R61 to R64, R73). -/

namespace Sys2Proof

/-! ## From commands to words and back -/

/-! The opcode selects the format (R73). -/

theorem decode_of_elen_opcode {C : CmdWord} (h : opcOf C = 0x01#8) : decode C = decodeElen C := by
  rw [decode, if_pos h]

theorem decode_of_dlen_opcode {C : CmdWord} (h : opcOf C = 0x02#8) : decode C = decodeDlen C := by
  simp [decode, h]

theorem decode_of_enc_opcode {C : CmdWord} (h : opcOf C = 0x10#8) : decode C = decodeEnc C := by
  simp [decode, h]

theorem decode_of_dec_opcode {C : CmdWord} (h : opcOf C = 0x20#8) : decode C = decodeDec C := by
  simp [decode, h]

theorem decode_of_cfg_opcode {C : CmdWord} (h : opcOf C = 0x30#8) : decode C = decodeCfg C := by
  simp [decode, h]

theorem decode_of_rdcfg_opcode {C : CmdWord} (h : opcOf C = 0x31#8) :
    decode C = decodeRdcfg C := by
  simp [decode, h]

/-! A command's word passes its format's tests of the reserved bits, and of CNT if that is in
range. -/

theorem decode_encode_elen (p : Bool) (len : LenWord) :
    decode (encode (.elen p len)) = .ok (.elen p len) := by
  have hnum := encode_elen_toNat p len
  have := p.toNat_le
  have hhigh : (encode (.elen p len)).extractLsb' 49 7 = 0#7 :=
    (extractLsb'_eq_zero_iff _ _ _).2 (by omega)
  have hlow : (encode (.elen p len)).extractLsb' 32 16 = 0#16 :=
    (extractLsb'_eq_zero_iff _ _ _).2 (by omega)
  obtain ⟨hp, hlen⟩ := fields_encode_elen p len
  rw [decode_of_elen_opcode (Laws.EncodedOpcode.elen p len), decodeElen, if_pos ⟨hhigh, hlow⟩,
    hp, hlen]

theorem decode_encode_dlen (len : LenWord) : decode (encode (.dlen len)) = .ok (.dlen len) := by
  have hnum := encode_dlen_toNat len
  have hres : (encode (.dlen len)).extractLsb' 32 24 = 0#24 :=
    (extractLsb'_eq_zero_iff _ _ _).2 (by omega)
  rw [decode_of_dlen_opcode (Laws.EncodedOpcode.dlen len), decodeDlen, if_pos hres,
    fields_encode_dlen]

theorem decode_encode_enc {n : BitVec 3} (a b c : Byte) (hn : encCountOk n = true) :
    decode (encode (.enc n a b c)) = .ok (.enc n a b c) := by
  have hnum := encode_enc_toNat n a b c
  have hhigh : (encode (.enc n a b c)).extractLsb' 51 5 = 0#5 :=
    (extractLsb'_eq_zero_iff _ _ _).2 (by omega)
  have hlow : (encode (.enc n a b c)).extractLsb' 24 24 = 0#24 :=
    (extractLsb'_eq_zero_iff _ _ _).2 (by omega)
  obtain ⟨hcnt, ha, hb, hc⟩ := fields_encode_enc n a b c
  rw [decode_of_enc_opcode (Laws.EncodedOpcode.enc n a b c), decodeEnc, if_pos ⟨hhigh, hlow⟩,
    hcnt, if_pos hn, ha, hb, hc]

theorem decode_encode_dec {n : BitVec 3} (w x y z : Symbol) (hn : decCountOk n = true) :
    decode (encode (.dec n w x y z)) = .ok (.dec n w x y z) := by
  have hnum := encode_dec_toNat n w x y z
  have hhigh : (encode (.dec n w x y z)).extractLsb' 51 5 = 0#5 :=
    (extractLsb'_eq_zero_iff _ _ _).2 (by omega)
  have hlow : (encode (.dec n w x y z)).extractLsb' 32 16 = 0#16 :=
    (extractLsb'_eq_zero_iff _ _ _).2 (by omega)
  obtain ⟨hcnt, hw, hx, hy, hz⟩ := fields_encode_dec n w x y z
  rw [decode_of_dec_opcode (Laws.EncodedOpcode.dec n w x y z), decodeDec, if_pos ⟨hhigh, hlow⟩,
    hcnt, if_pos hn, hw, hx, hy, hz]

theorem decode_encode_cfg (padc : Symbol) (pen : Bool) (alpha : Alphabet) :
    decode (encode (.cfg padc pen alpha)) = .ok (.cfg padc pen alpha) := by
  have hnum := encode_cfg_toNat padc pen alpha
  have := pen.toNat_le
  have := alpha.bit.toNat_le
  have hhigh : (encode (.cfg padc pen alpha)).extractLsb' 16 40 = 0#40 :=
    (extractLsb'_eq_zero_iff _ _ _).2 (by omega)
  have hlow : (encode (.cfg padc pen alpha)).extractLsb' 2 6 = 0#6 :=
    (extractLsb'_eq_zero_iff _ _ _).2 (by omega)
  obtain ⟨hpadc, hpen, halpha⟩ := fields_encode_cfg padc pen alpha
  rw [decode_of_cfg_opcode (Laws.EncodedOpcode.cfg padc pen alpha), decodeCfg,
    if_pos ⟨hhigh, hlow⟩, hpadc, hpen, halpha]

theorem decode_encode_rdcfg : decode (encode .rdcfg) = .ok .rdcfg := by decide

/-- Settles O1: the word has the command's opcode, 0 in every reserved bit and the operands in their
fields. -/
theorem decodeOfEncodeIsTheCommand : Obligations.DecodeOfEncodeIsTheCommand := by
  intro i hwf
  cases i with
  | elen p len => exact decode_encode_elen p len
  | dlen len => exact decode_encode_dlen len
  | enc n a b c => exact decode_encode_enc a b c hwf
  | dec n w x y z => exact decode_encode_dec w x y z hwf
  | cfg padc pen alpha => exact decode_encode_cfg padc pen alpha
  | rdcfg => exact decode_encode_rdcfg

/-! ## From words to commands and back

A word with 0 in its reserved bits is the word of its fields. -/

section
variable {C : CmdWord}

theorem encode_elen_fields (hopc : C.toNat / 2 ^ 56 = 1) (hhigh : C.toNat / 2 ^ 49 % 2 ^ 7 = 0)
    (hlow : C.toNat / 2 ^ 32 % 2 ^ 16 = 0) : encode (.elen (padBitOf C) (lenOf C)) = C := by
  apply BitVec.eq_of_toNat_eq
  rw [encode_elen_toNat, padBitOf_toNat, lenOf_toNat]
  omega

theorem encode_dlen_fields (hopc : C.toNat / 2 ^ 56 = 2) (hres : C.toNat / 2 ^ 32 % 2 ^ 24 = 0) :
    encode (.dlen (lenOf C)) = C := by
  apply BitVec.eq_of_toNat_eq
  rw [encode_dlen_toNat, lenOf_toNat]
  omega

theorem encode_enc_fields (hopc : C.toNat / 2 ^ 56 = 16) (hhigh : C.toNat / 2 ^ 51 % 2 ^ 5 = 0)
    (hlow : C.toNat / 2 ^ 24 % 2 ^ 24 = 0) :
    encode (.enc (cntOf C) (encByteOf C 0) (encByteOf C 1) (encByteOf C 2)) = C := by
  apply BitVec.eq_of_toNat_eq
  rw [encode_enc_toNat, cntOf_toNat, encByteOf_toNat, encByteOf_toNat, encByteOf_toNat]
  omega

theorem encode_dec_fields (hopc : C.toNat / 2 ^ 56 = 32) (hhigh : C.toNat / 2 ^ 51 % 2 ^ 5 = 0)
    (hlow : C.toNat / 2 ^ 32 % 2 ^ 16 = 0) :
    encode (.dec (cntOf C) (decSymbolOf C 0) (decSymbolOf C 1) (decSymbolOf C 2)
      (decSymbolOf C 3)) = C := by
  apply BitVec.eq_of_toNat_eq
  rw [encode_dec_toNat, cntOf_toNat, decSymbolOf_toNat, decSymbolOf_toNat, decSymbolOf_toNat,
    decSymbolOf_toNat]
  omega

theorem encode_cfg_fields (hopc : C.toNat / 2 ^ 56 = 48) (hhigh : C.toNat / 2 ^ 16 % 2 ^ 40 = 0)
    (hlow : C.toNat / 2 ^ 2 % 2 ^ 6 = 0) : encode (.cfg (padcOf C) (penOf C) (alphaOf C)) = C := by
  apply BitVec.eq_of_toNat_eq
  rw [encode_cfg_toNat, padcOf_toNat, penOf_toNat, alphaOf_bit_toNat]
  omega

theorem encode_rdcfg_fields (hopc : C.toNat / 2 ^ 56 = 49) (hres : C.toNat % 2 ^ 56 = 0) :
    encode .rdcfg = C := by
  apply BitVec.eq_of_toNat_eq
  rw [encode_rdcfg_toNat]
  omega

end

/-- Settles O2: each answer of the decoder comes with the tests that make the word the word of its
fields. -/
theorem encodeOfDecodeIsTheWord : Obligations.EncodeOfDecodeIsTheWord := by
  intro C i h
  cases decodes_of_decode h with
  | elen hopc hhigh hlow => exact ⟨rfl, encode_elen_fields hopc hhigh hlow⟩
  | dlen hopc hres => exact ⟨rfl, encode_dlen_fields hopc hres⟩
  | enc hopc hhigh hlow hcnt => exact ⟨hcnt, encode_enc_fields hopc hhigh hlow⟩
  | dec hopc hhigh hlow hcnt => exact ⟨hcnt, encode_dec_fields hopc hhigh hlow⟩
  | cfg hopc hhigh hlow => exact ⟨rfl, encode_cfg_fields hopc hhigh hlow⟩
  | rdcfg hopc hres => exact ⟨rfl, encode_rdcfg_fields hopc hres⟩

/-- Decoding answers exactly the well-formed commands, each for its own word. -/
theorem decode_eq_ok_iff (C : CmdWord) (i : Instr) :
    decode C = .ok i ↔ i.wf = true ∧ encode i = C := by
  refine ⟨encodeOfDecodeIsTheWord C i, ?_⟩
  rintro ⟨hwf, rfl⟩
  exact decodeOfEncodeIsTheCommand i hwf

end Sys2Proof
end

section
/-! The decoder and the opcode table (30_encoding.md R65, R68): a word has the fixed bits of a row
exactly when it is the word of a command with the row's mnemonic, whatever its CNT. -/

namespace Sys2Proof

/-! ## Commands by mnemonic -/

theorem eq_elen_of_mnemonic {i : Instr} (h : i.mnemonic = "ELEN") : ∃ p len, i = .elen p len := by
  cases i <;> simp [Instr.mnemonic] at h ⊢

theorem eq_dlen_of_mnemonic {i : Instr} (h : i.mnemonic = "DLEN") : ∃ len, i = .dlen len := by
  cases i <;> simp [Instr.mnemonic] at h ⊢

theorem eq_enc_of_mnemonic {i : Instr} (h : i.mnemonic = "ENC") : ∃ n a b c, i = .enc n a b c := by
  cases i <;> simp [Instr.mnemonic] at h ⊢

theorem eq_dec_of_mnemonic {i : Instr} (h : i.mnemonic = "DEC") :
    ∃ n w x y z, i = .dec n w x y z := by
  cases i <;> simp [Instr.mnemonic] at h ⊢

theorem eq_cfg_of_mnemonic {i : Instr} (h : i.mnemonic = "CFG") :
    ∃ padc pen alpha, i = .cfg padc pen alpha := by
  cases i <;> simp [Instr.mnemonic] at h ⊢

theorem eq_rdcfg_of_mnemonic {i : Instr} (h : i.mnemonic = "RDCFG") : i = .rdcfg := by
  cases i <;> simp [Instr.mnemonic] at h ⊢

/-! ## The fixed bits of each row -/

/-- Every mask of the table covers two fields. -/
theorem and_two_field_mask_eq_iff {w : Nat} {C mask value : BitVec w} {i m j n : Nat}
    (h : j + n ≤ i) (hmask : mask.toNat = (2 ^ m - 1) * 2 ^ i + (2 ^ n - 1) * 2 ^ j) :
    C &&& mask = value ↔
      C.toNat / 2 ^ i % 2 ^ m * 2 ^ i + C.toNat / 2 ^ j % 2 ^ n * 2 ^ j = value.toNat := by
  rw [← BitVec.toNat_inj, BitVec.toNat_and, hmask, and_two_field_mask _ _ _ _ _ h]

section
variable (C : CmdWord)

theorem elen_fixedBits_iff :
    C &&& 0xFFFEFFFF00000000#64 = 0x0100000000000000#64 ↔
      C.toNat / 2 ^ 56 = 1 ∧ C.toNat / 2 ^ 49 % 2 ^ 7 = 0 ∧ C.toNat / 2 ^ 32 % 2 ^ 16 = 0 := by
  rw [and_two_field_mask_eq_iff (i := 49) (m := 15) (j := 32) (n := 16) (by norm_num) rfl,
    BitVec.toNat_ofNat]
  omega

theorem dlen_fixedBits_iff :
    C &&& 0xFFFFFFFF00000000#64 = 0x0200000000000000#64 ↔
      C.toNat / 2 ^ 56 = 2 ∧ C.toNat / 2 ^ 32 % 2 ^ 24 = 0 := by
  rw [and_two_field_mask_eq_iff (i := 56) (m := 8) (j := 32) (n := 24) (by norm_num) rfl,
    BitVec.toNat_ofNat]
  omega

theorem enc_fixedBits_iff :
    C &&& 0xFFF8FFFFFF000000#64 = 0x1000000000000000#64 ↔
      C.toNat / 2 ^ 56 = 16 ∧ C.toNat / 2 ^ 51 % 2 ^ 5 = 0 ∧ C.toNat / 2 ^ 24 % 2 ^ 24 = 0 := by
  rw [and_two_field_mask_eq_iff (i := 51) (m := 13) (j := 24) (n := 24) (by norm_num) rfl,
    BitVec.toNat_ofNat]
  omega

theorem dec_fixedBits_iff :
    C &&& 0xFFF8FFFF00000000#64 = 0x2000000000000000#64 ↔
      C.toNat / 2 ^ 56 = 32 ∧ C.toNat / 2 ^ 51 % 2 ^ 5 = 0 ∧ C.toNat / 2 ^ 32 % 2 ^ 16 = 0 := by
  rw [and_two_field_mask_eq_iff (i := 51) (m := 13) (j := 32) (n := 16) (by norm_num) rfl,
    BitVec.toNat_ofNat]
  omega

theorem cfg_fixedBits_iff :
    C &&& 0xFFFFFFFFFFFF00FC#64 = 0x3000000000000000#64 ↔
      C.toNat / 2 ^ 56 = 48 ∧ C.toNat / 2 ^ 16 % 2 ^ 40 = 0 ∧ C.toNat / 2 ^ 2 % 2 ^ 6 = 0 := by
  rw [and_two_field_mask_eq_iff (i := 16) (m := 48) (j := 2) (n := 6) (by norm_num) rfl,
    BitVec.toNat_ofNat]
  omega

theorem rdcfg_fixedBits_iff :
    C &&& 0xFFFFFFFFFFFFFFFF#64 = 0x3100000000000000#64 ↔
      C.toNat / 2 ^ 56 = 49 ∧ C.toNat % 2 ^ 56 = 0 := by
  rw [and_two_field_mask_eq_iff (i := 56) (m := 8) (j := 0) (n := 56) (by norm_num) rfl,
    BitVec.toNat_ofNat]
  omega

end

/-! ## A row's words are the words of its commands -/

/-- The word of a command has the fixed bits of the command's row. -/
theorem encode_fixedBits {r : OpcodeRow} (hr : r ∈ opcodeTable) {i : Instr}
    (h : i.mnemonic = r.mnemonic) : encode i &&& r.mask = r.value := by
  simp only [opcodeTable, List.mem_cons, List.not_mem_nil, or_false] at hr
  obtain rfl | rfl | rfl | rfl | rfl | rfl := hr
  · obtain ⟨p, len, rfl⟩ := eq_elen_of_mnemonic h
    have := p.toNat_le
    rw [elen_fixedBits_iff, encode_elen_toNat]
    omega
  · obtain ⟨len, rfl⟩ := eq_dlen_of_mnemonic h
    rw [dlen_fixedBits_iff, encode_dlen_toNat]
    omega
  · obtain ⟨n, a, b, c, rfl⟩ := eq_enc_of_mnemonic h
    rw [enc_fixedBits_iff, encode_enc_toNat]
    omega
  · obtain ⟨n, w, x, y, z, rfl⟩ := eq_dec_of_mnemonic h
    rw [dec_fixedBits_iff, encode_dec_toNat]
    omega
  · obtain ⟨padc, pen, alpha, rfl⟩ := eq_cfg_of_mnemonic h
    have := pen.toNat_le
    have := alpha.bit.toNat_le
    rw [cfg_fixedBits_iff, encode_cfg_toNat]
    omega
  · obtain rfl := eq_rdcfg_of_mnemonic h
    decide

/-- A word with the fixed bits of a row is the word of its fields. -/
theorem exists_encode_of_fixedBits {r : OpcodeRow} (hr : r ∈ opcodeTable) {C : CmdWord}
    (h : C &&& r.mask = r.value) : ∃ i : Instr, i.mnemonic = r.mnemonic ∧ encode i = C := by
  simp only [opcodeTable, List.mem_cons, List.not_mem_nil, or_false] at hr
  obtain rfl | rfl | rfl | rfl | rfl | rfl := hr
  · obtain ⟨hopc, hhigh, hlow⟩ := (elen_fixedBits_iff C).1 h
    exact ⟨_, rfl, encode_elen_fields hopc hhigh hlow⟩
  · obtain ⟨hopc, hres⟩ := (dlen_fixedBits_iff C).1 h
    exact ⟨_, rfl, encode_dlen_fields hopc hres⟩
  · obtain ⟨hopc, hhigh, hlow⟩ := (enc_fixedBits_iff C).1 h
    exact ⟨_, rfl, encode_enc_fields hopc hhigh hlow⟩
  · obtain ⟨hopc, hhigh, hlow⟩ := (dec_fixedBits_iff C).1 h
    exact ⟨_, rfl, encode_dec_fields hopc hhigh hlow⟩
  · obtain ⟨hopc, hhigh, hlow⟩ := (cfg_fixedBits_iff C).1 h
    exact ⟨_, rfl, encode_cfg_fields hopc hhigh hlow⟩
  · obtain ⟨hopc, hres⟩ := (rdcfg_fixedBits_iff C).1 h
    exact ⟨_, rfl, encode_rdcfg_fields hopc hres⟩

/-- What a row asks of CNT is that the command be well-formed (R68). -/
theorem countOk_encode {r : OpcodeRow} {i : Instr} (h : i.mnemonic = r.mnemonic) :
    r.countOk (encode i) = i.wf := by
  unfold OpcodeRow.countOk
  rw [← h]
  cases i with
  | enc n a b c => simp [Instr.mnemonic, Instr.wf, fields_encode_enc]
  | dec n w x y z => simp [Instr.mnemonic, Instr.wf, fields_encode_dec]
  | elen p len => rfl
  | dlen len => rfl
  | cfg padc pen alpha => rfl
  | rdcfg => rfl

/-- Settles O3: a row's words are those of the commands with its mnemonic, and those of them that
decode are the well-formed ones. -/
theorem commandWordsAreTheTableRows : Obligations.CommandWordsAreTheTableRows := by
  intro r hr C
  simp only [decode_eq_ok_iff]
  constructor
  · rintro ⟨i, ⟨hwf, rfl⟩, hmnemonic⟩
    exact ⟨encode_fixedBits hr hmnemonic, (countOk_encode hmnemonic).trans hwf⟩
  · rintro ⟨hbits, hcount⟩
    obtain ⟨i, hmnemonic, rfl⟩ := exists_encode_of_fixedBits hr hbits
    exact ⟨i, ⟨(countOk_encode hmnemonic).symm.trans hcount, rfl⟩, hmnemonic⟩

end Sys2Proof
end

section
/-! Positions of a group at or above CNT (30_encoding.md R69). -/

namespace Sys2Proof.Machine

/-! ## Absent positions do not reach the datapath -/

theorem encLane_congr {n : BitVec 3} {i : Nat} {x y : Byte} (h : i < n.toNat → x = y) :
    encLane n i x = encLane n i y := by
  unfold encLane
  split
  · rw [h ‹_›]
  · rfl

theorem decLane_congr (al : Alphabet) {n : BitVec 3} {i : Nat} {x y : Symbol}
    (h : i < n.toNat → x = y) : decLane al n i x = decLane al n i y := by
  unfold decLane
  split
  · rw [h ‹_›]
  · rfl

/-- Of the state ENC reads `CODEC_CFG` alone. -/
theorem exec_enc_eq (n : BitVec 3) (a b c : Byte) (s : State) :
    exec (.enc n a b c) s = .next (respond (encResponse (readCfg s) n a b c) s) :=
  exec_eq (.enc n a b c) s

theorem exec_enc_congr {n : BitVec 3} {a b c a' b' c' : Byte} (s : State)
    (ha : 0 < n.toNat → a = a') (hb : 1 < n.toNat → b = b') (hc : 2 < n.toNat → c = c') :
    exec (.enc n a b c) s = exec (.enc n a' b' c') s := by
  have hgroup : encGroup n a b c = encGroup n a' b' c' := by
    rw [encGroup, encLane_congr ha, encLane_congr hb, encLane_congr hc, encGroup]
  have hresponse : encResponse (readCfg s) n a b c = encResponse (readCfg s) n a' b' c' := by
    simp only [encResponse, encSymbols, encDataSymbols, hgroup]
  rw [exec_enc_eq, exec_enc_eq, hresponse]

theorem exec_dec_congr {n : BitVec 3} {w x y z w' x' y' z' : Symbol} (s : State)
    (hw : 0 < n.toNat → w = w') (hx : 1 < n.toNat → x = x') (hy : 2 < n.toNat → y = y')
    (hz : 3 < n.toNat → z = z') :
    exec (.dec n w x y z) s = exec (.dec n w' x' y' z') s := by
  have hbytes (al : Alphabet) : decBytes al n w x y z = decBytes al n w' x' y' z' := by
    rw [decBytes, decLane_congr al hw, decLane_congr al hx, decLane_congr al hy,
      decLane_congr al hz, decBytes]
  rw [exec_dec_eq, exec_dec_eq, decResponse, hbytes, decResponse]

/-! ## Bits 31:24 of ENC are reserved -/

/-- The reserved bits are tested before CNT. -/
theorem decode_of_enc_byte3 {C : CmdWord} (hopc : opcOf C = 0x10#8)
    (hbyte : C.extractLsb' 24 8 ≠ 0#8) : decode C = .error .reservedBitSet := by
  have hreserved : C.extractLsb' 24 24 ≠ 0#24 := by
    rw [ne_eq, extractLsb'_eq_zero_iff] at hbyte ⊢
    omega
  rw [decode_of_enc_opcode hopc, decodeEnc, if_neg fun h => hreserved h.2]

/-- Settles O19: a group's effect is that of its present positions, every count in range makes a
well-formed command, and the decoder refuses an ENC word with a fourth byte. -/
theorem absentPositionsAreIgnored : Obligations.AbsentPositionsAreIgnored := by
  refine ⟨?enc, ?dec, ?reserved⟩
  case enc =>
    intro n a b c a' b' c' s h1 h3 ha hb hc
    exact ⟨decode_encode_enc a' b' c' ((encCountOk_iff n).2 ⟨h1, h3⟩), exec_enc_congr s ha hb hc⟩
  case dec =>
    intro n w x y z w' x' y' z' s h1 h4 hw hx hy hz
    exact ⟨decode_encode_dec w' x' y' z' ((decCountOk_iff n).2 ⟨h1, h4⟩),
      exec_dec_congr s hw hx hy hz⟩
  case reserved =>
    intro C hopc hbyte
    have hrefused := decode_of_enc_byte3 hopc hbyte
    exact ⟨⟨_, hrefused⟩, fun _ _ => hrefused⟩

end Sys2Proof.Machine
end

section
/-! Every response word is legal (30_encoding.md R71, R72; 60_exceptions.md R131, R132). -/

namespace Sys2Proof.Machine

/-! ## The words the block builds -/

theorem legalResponse_ok (opc : BitVec 8) {cnt : BitVec 3} (data : Payload)
    (hcnt : cnt.toNat ≤ 4) : LegalResponse (mkResponse opc .ok cnt data) := by
  refine ⟨.inl ?_, ?_, ?_⟩
  · exact rspSt_mkResponse opc .ok cnt data
  · exact rspBit51_mkResponse opc .ok cnt data
  · rwa [rspCnt_mkResponse]

theorem legalResponse_illegal (opc : BitVec 8) : LegalResponse (illegalResponse opc) := by
  refine ⟨.inr ⟨?_, ?_⟩, ?_, ?_⟩
  · exact rspSt_mkResponse opc .illegal 0#3 0#48
  · exact congrArg illegalResponse (rspOpc_mkResponse opc .illegal 0#3 0#48).symm
  · exact rspBit51_mkResponse opc .illegal 0#3 0#48
  · rw [illegalResponse, rspCnt_mkResponse]
    decide

/-- A list of at most 4 bytes has its length in CNT. -/
theorem toNat_ofNat_length_le {α : Type} {l : List α} (h : l.length ≤ 4) :
    (BitVec.ofNat 3 l.length).toNat ≤ 4 := by
  rw [BitVec.toNat_ofNat]
  exact (Nat.mod_le _ _).trans h

/-- The four values give at most 4 symbols, and padding fills up to 4. -/
theorem length_encSymbols_le (g : BitVec 16) (n : BitVec 3) (a b c : Byte) :
    (encSymbols g n a b c).length ≤ 4 := by
  have hdata : (encDataSymbols (cfgAlpha g) n a b c).length = min (n.toNat + 1) 4 := by
    simp only [encDataSymbols, encValues, List.length_map, List.length_take, List.length_cons,
      List.length_nil]
  unfold encSymbols
  split
  · rw [List.length_append, List.length_replicate, hdata]
    omega
  · rw [hdata]
    omega

theorem length_decBytes_le (al : Alphabet) (n : BitVec 3) (w x y z : Symbol) :
    (decBytes al n w x y z).length ≤ 3 := by
  unfold decBytes decEmit
  split
  · simp only [List.length_append, apply_ite List.length, List.length_singleton, List.length_nil]
    split <;> split <;> omega
  · exact Nat.zero_le 3

theorem legalResponse_responseOf (i : Instr) (g : BitVec 16) : LegalResponse (responseOf i g) := by
  have hzero : (0#3).toNat ≤ 4 := by decide
  cases i with
  | elen p len => exact legalResponse_ok _ _ hzero
  | dlen len => exact legalResponse_ok _ _ hzero
  | enc n a b c =>
    exact legalResponse_ok _ _ (toNat_ofNat_length_le (length_encSymbols_le g n a b c))
  | dec n w x y z =>
    have hlen := length_decBytes_le (cfgAlpha g) n w x y z
    exact legalResponse_ok _ _ (toNat_ofNat_length_le (hlen.trans (by decide)))
  | cfg padc pen alpha => exact legalResponse_ok _ _ hzero
  | rdcfg => exact legalResponse_ok _ _ hzero

theorem legalResponse_wordResponse (w : CmdWord) (g : BitVec 16) :
    LegalResponse (wordResponse w g) := by
  unfold wordResponse
  cases decode w with
  | ok i => exact legalResponse_responseOf i g
  | error why => exact legalResponse_illegal (opcOf w)

/-! ## The invariant -/

theorem portActions_keeps_responsesLegal (e : Edge) {s : State} (hs : s.ResponsesLegal) :
    (portActions e s).ResponsesLegal := by
  rw [State.ResponsesLegal, delivered_append_queued_portActions]
  exact hs

theorem accepting_keeps_responsesLegal (w : CmdWord) {s : State} (hs : s.ResponsesLegal) :
    (accepting w s).ResponsesLegal := by
  rw [State.ResponsesLegal, accepting_delivered, queuedWords_accepting, ← List.append_assoc]
  intro r hr
  obtain hold | hnew := List.mem_append.1 hr
  · exact hs r hold
  · rw [List.mem_singleton.1 hnew]
    exact legalResponse_wordResponse w (readCfg s)

/-- Settles O45: a reset drops every response, the ports only move them, and an accepted word adds a
legal one. -/
theorem stepKeepsResponsesLegal : Obligations.StepKeepsResponsesLegal := by
  intro s t
  refine step_preserves ?edges ?reset ?ports ?accept
  case edges => exact fun s es hs => hs
  case reset => exact fun s r hr => nomatch hr
  case ports => exact fun e s hs => portActions_keeps_responsesLegal e hs
  case accept =>
    intro e s hs _
    have := accepting_keeps_responsesLegal e.cmdData (portActions_keeps_responsesLegal e hs)
    rwa [accepting, readCfg_portActions] at this

end Sys2Proof.Machine
end

section
/-! The words of R75's lines (30_encoding.md section 7). -/

namespace Sys2Proof.Machine

theorem asmSymbol_toNat (n : BitVec 3) (i : Nat) (x : Symbol) :
    (asmSymbol n i x).toNat = if i < n.toNat then x.toNat else 0 := apply_ite BitVec.toNat _ _ _

theorem assemble_enc_toNat (n : BitVec 3) (data : BitVec 24) :
    (assemble (.enc n data)).toNat = 0x10 * 2 ^ 56 + n.toNat * 2 ^ 48 + data.toNat := by
  rw [assemble, AsmLine.instr, encode_enc_toNat]
  simp only [toNat_extractLsb'_eq]
  omega

theorem assemble_decWord_toNat (n : BitVec 3) (data : BitVec 32) :
    (assemble (.decWord n data)).toNat = 0x20 * 2 ^ 56 + n.toNat * 2 ^ 48 + data.toNat := by
  rw [assemble, AsmLine.instr, encode_dec_toNat]
  simp only [toNat_extractLsb'_eq]
  omega

theorem assemble_decText_toNat (n : BitVec 3) (w x y z : Symbol) :
    (assemble (.decText n w x y z)).toNat = 0x20 * 2 ^ 56 + n.toNat * 2 ^ 48 +
      (if 0 < n.toNat then w.toNat else 0) * 2 ^ 24 +
      (if 1 < n.toNat then x.toNat else 0) * 2 ^ 16 +
      (if 2 < n.toNat then y.toNat else 0) * 2 ^ 8 + (if 3 < n.toNat then z.toNat else 0) := by
  rw [assemble, AsmLine.instr, encode_dec_toNat]
  simp only [asmSymbol_toNat]

/-- Settles O7: a line's word is the word of its command; the bytes of a data field add up to the
data, and an absent character counts 0. -/
theorem assembledLinesAreTheirWords : Obligations.AssembledLinesAreTheirWords :=
  ⟨encode_elen_toNat, encode_dlen_toNat, assemble_enc_toNat, assemble_decWord_toNat,
    assemble_decText_toNat, fun alpha pen padc => encode_cfg_toNat padc pen alpha,
    encode_rdcfg_toNat⟩

end Sys2Proof.Machine
end

section
/-! The responses to a list of command words (20_memory.md R46, R53): one a word, each of them
`wordResponse` under the `CODEC_CFG` its word finds. -/

namespace Sys2Proof.Machine

/-- The machine only appends to the queue. -/
theorem queuedWords_prefix_of_runWords {ws : List CmdWord} {s t : State}
    (h : runWords ws s = .next t) : queuedWords s <+: queuedWords t := by
  induction ws generalizing s with
  | nil => cases h; exact List.prefix_rfl
  | cons w ws ih =>
    have htail : queuedWords (accepting w s) <+: queuedWords t :=
      ih ((runWords_cons w ws s).symm.trans h)
    rw [queuedWords_accepting] at htail
    exact (List.prefix_append _ _).trans htail

theorem queuedWords_append_answers {ws : List CmdWord} {s t : State}
    (h : runWords ws s = .next t) : queuedWords s ++ answers ws s = queuedWords t := by
  have hdrop : answers ws s = (queuedWords t).drop (queuedWords s).length := by
    rw [answers, h, length_queuedWords]
  obtain ⟨rs, hrs⟩ := queuedWords_prefix_of_runWords h
  rw [hdrop, ← hrs, List.drop_left]

@[simp] theorem answers_nil (s : State) : answers [] s = [] :=
  List.append_right_eq_self.1 (queuedWords_append_answers (ws := []) rfl)

@[simp] theorem answers_cons (w : CmdWord) (ws : List CmdWord) (s : State) :
    answers (w :: ws) s = wordResponse w (readCfg s) :: answers ws (accepting w s) := by
  obtain ⟨t, hrun, _⟩ := runWords_total ws (accepting w s)
  have htail := queuedWords_append_answers hrun
  have hwhole := queuedWords_append_answers ((runWords_cons w ws s).trans hrun)
  rw [queuedWords_accepting, List.append_assoc, ← hwhole] at htail
  exact (List.append_cancel_left htail).symm

@[simp] theorem length_answers (ws : List CmdWord) (s : State) :
    (answers ws s).length = ws.length := by
  induction ws generalizing s with
  | nil => rw [answers_nil, List.length_nil]
  | cons w ws ih => rw [answers_cons, List.length_cons, ih, List.length_cons]

/-- The word of a well-formed command is answered as the command. -/
theorem wordResponse_encode {i : Instr} (hwf : i.wf = true) (g : BitVec 16) :
    wordResponse (encode i) g = responseOf i g := by
  rw [wordResponse, decodeOfEncodeIsTheCommand i hwf]

/-- A word the decoder refuses completes with the ILLEGAL response (60_exceptions.md R131). -/
theorem executeWord_of_decode_error {w : CmdWord} {why : IllegalCause}
    (h : decode w = .error why) (s : State) :
    executeWord w s = .next (respond (illegalResponse (opcOf w)) s) := by
  rw [executeWord, h]
  rfl

end Sys2Proof.Machine
end

section
/-! The size calculators ELEN and DLEN (40_length.md R80, R81): their arithmetic, their reserved
bits, and the capacity DLEN computes as a bound on every decoded text. -/

namespace Sys2Proof.Machine

/-! ## The arithmetic -/

/-- `elenBase` is the ceiling of `len * 4 / 3`. -/
theorem elenBase_le_iff (len m : Nat) : 4 * len ≤ 3 * m ↔ elenBase len ≤ m := by
  unfold elenBase
  omega

/-- `dlenMin` is the ceiling of `len * 3 / 4`. -/
theorem dlenMin_le_iff (len m : Nat) : 3 * len ≤ 4 * m ↔ dlenMin len ≤ m := by
  unfold dlenMin
  omega

theorem elenResult_unpadded (len : Nat) : elenResult false len = elenBase len := rfl

theorem elenResult_padded_round (len : Nat) :
    elenResult true len % 4 = 0 ∧ elenBase len ≤ elenResult true len ∧
      elenResult true len < elenBase len + 4 := by
  simp only [elenResult, true_and]
  split <;> omega

theorem dlenResult_round (len : Nat) :
    dlenResult len % 3 = 0 ∧ dlenMin len ≤ dlenResult len ∧
      dlenResult len < dlenMin len + 3 := by
  unfold dlenResult
  split <;> omega

/-- The padded length is 4 symbols a group of 3 bytes: the one multiple of 4 in the range of
`elenResult_padded_round`. -/
theorem elenResult_padded (len : Nat) : elenResult true len = 4 * ((len + 2) / 3) := by
  obtain ⟨hmod, hlow, hhigh⟩ := elenResult_padded_round len
  unfold elenBase at hlow hhigh
  omega

/-- The capacity is 3 bytes a group of 4 symbols: the one multiple of 3 in the range of
`dlenResult_round`. -/
theorem dlenResult_eq (len : Nat) : dlenResult len = 3 * ((len + 3) / 4) := by
  obtain ⟨hmod, hlow, hhigh⟩ := dlenResult_round len
  unfold dlenMin at hlow hhigh
  omega

/-- The largest `len` gives a multiple of 4 in both forms, and no other gives more. -/
theorem elenResult_bounds (p : Bool) (len : Nat) :
    (len < 2 ^ 32 → elenResult p len ≤ 5726623060) ∧ (len = 0 → elenResult p len = 0) ∧
      (len = 2 ^ 32 - 1 → elenResult p len = 5726623060) := by
  cases p with
  | false =>
    rw [elenResult_unpadded, elenBase]
    omega
  | true =>
    rw [elenResult_padded]
    omega

/-- A result that fits the 48-bit field is read back whole (R84). -/
theorem payload_of_result (opc : BitVec 8) {res : Nat} (h : res < 2 ^ 48) :
    (rspPayload (mkResponse opc .ok 0#3 (BitVec.ofNat 48 res))).toNat = res := by
  rw [rspPayload_mkResponse, BitVec.toNat_ofNat, Nat.mod_eq_of_lt h]

/-! ## The reserved bits (30_encoding.md R62) -/

theorem elen_reserved_eq_zero_iff (C : CmdWord) :
    C &&& 0x00FEFFFF00000000#64 = 0#64 ↔
      C.extractLsb' 49 7 = 0#7 ∧ C.extractLsb' 32 16 = 0#16 := by
  rw [and_two_field_mask_eq_iff (i := 49) (m := 7) (j := 32) (n := 16) (by norm_num) rfl,
    extractLsb'_eq_zero_iff, extractLsb'_eq_zero_iff, BitVec.toNat_zero]
  omega

theorem dlen_reserved_eq_zero_iff (C : CmdWord) :
    C &&& 0x00FFFFFF00000000#64 = 0#64 ↔ C.extractLsb' 32 24 = 0#24 := by
  rw [and_two_field_mask_eq_iff (i := 48) (m := 8) (j := 32) (n := 16) (by norm_num) rfl,
    extractLsb'_eq_zero_iff, BitVec.toNat_zero]
  omega

theorem executeWord_of_elen_reserved {C : CmdWord} (s : State) (hopc : opcOf C = 0x01#8)
    (hres : C &&& 0x00FEFFFF00000000#64 ≠ 0#64) :
    executeWord C s = .next (respond (illegalResponse 0x01#8) s) := by
  have hrefused : decode C = .error .reservedBitSet := by
    rw [decode_of_elen_opcode hopc, decodeElen, if_neg (mt (elen_reserved_eq_zero_iff C).2 hres)]
  rw [executeWord_of_decode_error hrefused, hopc]

theorem executeWord_of_dlen_reserved {C : CmdWord} (s : State) (hopc : opcOf C = 0x02#8)
    (hres : C &&& 0x00FFFFFF00000000#64 ≠ 0#64) :
    executeWord C s = .next (respond (illegalResponse 0x02#8) s) := by
  have hrefused : decode C = .error .reservedBitSet := by
    rw [decode_of_dlen_opcode hopc, decodeDlen, if_neg (mt (dlen_reserved_eq_zero_iff C).2 hres)]
  rw [executeWord_of_decode_error hrefused, hopc]

/-! ## ELEN -/

/-- Settles O12: the response carries `elenResult`, whose base is the ceiling, and a word with a
reserved bit is refused by the decoder. -/
theorem elenRespondsTheEncodedLength : Obligations.ElenRespondsTheEncodedLength := by
  refine ⟨fun p len s => ?_, fun C s => executeWord_of_elen_reserved s⟩
  obtain ⟨hmax, hzero, htop⟩ := elenResult_bounds p len.toNat
  have hle := hmax len.isLt
  refine ⟨_, elenBase len.toNat, elenResult p len.toNat, exec_eq (.elen p len) s,
    elenBase_le_iff len.toNat, ?unpadded, ?padded, rspOpc_mkResponse _ _ _ _,
    rspSt_mkResponse _ _ _ _, rspBit51_mkResponse _ _ _ _, rspCnt_mkResponse _ _ _ _,
    payload_of_result _ (by omega), by omega, hzero, htop⟩
  case unpadded =>
    rintro rfl
    exact elenResult_unpadded len.toNat
  case padded =>
    rintro rfl
    exact elenResult_padded_round len.toNat

/-! ## DLEN's capacity (R81) -/

/-- 4 symbols a command, the last group holding the rest (20_memory.md R46). -/
theorem length_decGroups (t : List Symbol) : (decGroups t).length = (t.length + 3) / 4 := by
  induction t using decGroups.induct with
  | case1 | case2 | case3 | case4 => simp [decGroups]
  | case5 w x y z rest ih =>
    simp only [decGroups, List.length_cons, ih]
    omega

theorem length_decPayload_le (r : RspWord) : (decPayload r).length ≤ 3 := by
  rw [decPayload, List.length_take]
  exact Nat.min_le_right _ 3

/-- A response carries at most 3 bytes, and there is one for every group of the text. -/
theorem length_decodeMessage_le (t : List Symbol) (s : State) :
    (decodeMessage t s).length ≤ dlenResult t.length := by
  have hpayloads (rs : List RspWord) : (rs.flatMap decPayload).length ≤ rs.length * 3 := by
    rw [List.length_flatMap, ← List.length_map (f := fun r => (decPayload r).length)]
    exact List.sum_le_card_nsmul _ 3 (List.forall_mem_map.2 fun r _ => length_decPayload_le r)
  calc (decodeMessage t s).length
    _ ≤ (answers ((decGroups t).map encode) s).length * 3 := hpayloads _
    _ = dlenResult t.length := by
      rw [length_answers, List.length_map, length_decGroups, dlenResult_eq, Nat.mul_comm]

/-- The text `AA` is one group of two symbols, both of value 0 in either alphabet. -/
theorem length_decodeMessage_AA (s : State) :
    (decodeMessage [0x41#8, 0x41#8] s).length = 1 := by
  have hgroup : decodeMessage [0x41#8, 0x41#8] s =
      decPayload (decResponse (cfgAlpha (readCfg s)) 2#3 0x41#8 0x41#8 0#8 0#8) := by
    rw [decodeMessage, decGroups, List.map_singleton, answers_cons, answers_nil,
      wordResponse_encode rfl, List.flatMap_singleton]
    rfl
  rw [hgroup]
  cases cfgAlpha (readCfg s) <;> decide

/-- Settles O13: the response carries `dlenResult`, which is 3 bytes a group and so bounds every
decoded text of `len` symbols, and a word with a reserved bit is refused by the decoder. -/
theorem dlenRespondsTheDecodedCapacity : Obligations.DlenRespondsTheDecodedCapacity := by
  refine ⟨fun len s => ?_, fun s => ⟨rfl, length_decodeMessage_AA s⟩,
    fun C s => executeWord_of_dlen_reserved s⟩
  obtain ⟨hmod, hlow, hhigh⟩ := dlenResult_round len.toNat
  have hclosed := dlenResult_eq len.toNat
  refine ⟨_, dlenMin len.toNat, dlenResult len.toNat, exec_eq (.dlen len) s,
    dlenMin_le_iff len.toNat, hmod, hlow, hhigh, rspOpc_mkResponse _ _ _ _,
    rspSt_mkResponse _ _ _ _, rspBit51_mkResponse _ _ _ _, rspCnt_mkResponse _ _ _ _,
    payload_of_result _ (by omega), by omega, by omega, by omega, fun t u ht => ?capacity⟩
  case capacity => exact ht ▸ length_decodeMessage_le t u

end Sys2Proof.Machine
end

section
/-! The encoder's regrouper (41_encode.md R91): a group's 24 bits, its four values as windows of
them, and the same values as the source's 8-bit expressions. -/

namespace Sys2Proof.Machine

/-! ## The group -/

theorem encLane_value (n : BitVec 3) (i : Nat) (x : Byte) :
    (encLane n i x).value = if i < n.toNat then x else 0#8 := by
  unfold encLane
  split <;> rfl

/-- With a count in range the first byte is present, and the third at the largest count alone. -/
theorem encGroup_eq {n : BitVec 3} (h1 : 1 ≤ n.toNat) (h3 : n.toNat ≤ 3) (a b c : Byte) :
    encGroup n a b c =
      a ++ (if 2 ≤ n.toNat then b else 0#8) ++ (if n.toNat = 3 then c else 0#8) := by
  have hthird : 2 < n.toNat ↔ n.toNat = 3 := by omega
  simp only [encGroup, encLane_value, if_pos (Nat.zero_lt_of_lt h1), hthird, Nat.succ_le_iff]

theorem encGroup_toNat {n : BitVec 3} (h1 : 1 ≤ n.toNat) (h3 : n.toNat ≤ 3) (a b c : Byte) :
    (encGroup n a b c).toNat =
      a.toNat * 2 ^ 16 + (if 2 ≤ n.toNat then b.toNat else 0) * 2 ^ 8 +
        (if n.toNat = 3 then c.toNat else 0) := by
  have hnum : (encGroup n a b c).toNat = _ := congrArg BitVec.toNat (encGroup_eq h1 h3 a b c)
  rw [hnum, toNat_append_eq_add, toNat_append_eq_add, apply_ite BitVec.toNat,
    apply_ite BitVec.toNat, BitVec.toNat_zero]
  ring

/-! ## The values -/

/-- Value `i` of a group is the number's quotient by the bits below its window. -/
theorem encValues_eq (g : BitVec 24) :
    encValues g = (List.range 4).map fun i => BitVec.ofNat 6 (g.toNat / 2 ^ (18 - 6 * i)) := by
  simp only [← Nat.shiftRight_eq_div_pow]
  rfl

/-- The low bits of `x` above the high bits of `y`, as the source joins them, are a sum. -/
theorem toNat_joined {x y mask : Byte} {i j k : Nat} (hmask : mask.toNat = 2 ^ i - 1)
    (hij : i + j ≤ 8) (hjk : j + k = 8) :
    (((x &&& mask) <<< j) ||| (y >>> k)).toNat =
      x.toNat % 2 ^ i * 2 ^ j + y.toNat / 2 ^ k := by
  have hlow : y.toNat / 2 ^ k < 2 ^ j := by
    rw [Nat.div_lt_iff_lt_mul (Nat.two_pow_pos k), ← pow_add, hjk]
    exact y.isLt
  have hhigh : x.toNat % 2 ^ i * 2 ^ j < 2 ^ 8 :=
    calc x.toNat % 2 ^ i * 2 ^ j
      _ < 2 ^ i * 2 ^ j :=
        Nat.mul_lt_mul_of_pos_right (Nat.mod_lt _ (Nat.two_pow_pos i)) (Nat.two_pow_pos j)
      _ = 2 ^ (i + j) := (pow_add 2 i j).symm
      _ ≤ 2 ^ 8 := Nat.pow_le_pow_right (by norm_num) hij
  rw [BitVec.toNat_or, BitVec.toNat_shiftLeft, BitVec.toNat_and, hmask,
    Nat.and_two_pow_sub_one_eq_mod, BitVec.toNat_ushiftRight, Nat.shiftRight_eq_div_pow,
    Nat.shiftLeft_eq, Nat.mod_eq_of_lt hhigh, ← Nat.shiftLeft_eq,
    Nat.shiftLeft_add_eq_or_of_lt hlow]

/-- A window of the group, widened to a byte. -/
theorem setWidth_window_eq_iff (g : BitVec 24) (i : Nat) (x : Byte) :
    (g.extractLsb' i 6).setWidth 8 = x ↔ g.toNat / 2 ^ i % 2 ^ 6 = x.toNat := by
  rw [← BitVec.toNat_inj, BitVec.toNat_setWidth, toNat_extractLsb'_eq]
  omega

/-- R91 on three bytes. -/
theorem encValues_append (a b c : Byte) :
    (encValues (a ++ b ++ c)).map (BitVec.setWidth 8) =
      [a >>> 2, ((a &&& 3#8) <<< 4) ||| (b >>> 4), ((b &&& 15#8) <<< 2) ||| (c >>> 6),
        c &&& 63#8] := by
  have hgroup : (a ++ b ++ c).toNat = (a.toNat * 2 ^ 8 + b.toNat) * 2 ^ 8 + c.toNat := by
    rw [toNat_append_eq_add, toNat_append_eq_add]
  have hsecond : (((a &&& 3#8) <<< 4) ||| (b >>> 4)).toNat =
      a.toNat % 2 ^ 2 * 2 ^ 4 + b.toNat / 2 ^ 4 :=
    toNat_joined rfl (by norm_num) rfl
  have hthird : (((b &&& 15#8) <<< 2) ||| (c >>> 6)).toNat =
      b.toNat % 2 ^ 4 * 2 ^ 2 + c.toNat / 2 ^ 6 :=
    toNat_joined rfl (by norm_num) rfl
  have hfourth : (c &&& 63#8).toNat = c.toNat % 2 ^ 6 := by
    rw [BitVec.toNat_and]
    exact Nat.and_two_pow_sub_one_eq_mod c.toNat 6
  simp only [encValues, List.map_cons, List.map_nil, List.cons.injEq, and_true,
    setWidth_window_eq_iff, hsecond, hthird, hfourth, BitVec.toNat_ushiftRight,
    Nat.shiftRight_eq_div_pow]
  have := a.isLt
  have := b.isLt
  have := c.isLt
  refine ⟨?_, ?_, ?_, ?_⟩ <;> omega

/-- Settles O16: an absent byte is 0 in the group, and the windows of three joined bytes are the
source's expressions. -/
theorem encRegrouperIsTheSourcesExpressions : Obligations.EncRegrouperIsTheSourcesExpressions := by
  intro n a b c h1 h3
  have hgroup := encGroup_eq h1 h3 a b c
  refine ⟨_, _, rfl, rfl, hgroup, ?_⟩
  rw [hgroup]
  exact encValues_append a _ _

end Sys2Proof.Machine
end

section
/-! ENC (41_encode.md R90 to R96): the symbols of a group, the response that carries them, and the
words the decoder refuses. -/

namespace Sys2Proof.Machine

/-! ## The symbols -/

/-- The data symbols stand for the first `n + 1` values of the group's number. -/
theorem encDataSymbols_eq (al : Alphabet) {n : BitVec 3} (h3 : n.toNat ≤ 3) (a b c : Byte) :
    encDataSymbols al n a b c =
      (List.range (n.toNat + 1)).map fun i =>
        encLut al (BitVec.ofNat 6 ((encGroup n a b c).toNat / 2 ^ (18 - 6 * i))) := by
  rw [encDataSymbols, encValues_eq, ← List.map_take, List.take_range, Nat.min_eq_left (by omega),
    List.map_map]
  rfl

theorem length_encDataSymbols (al : Alphabet) {n : BitVec 3} (h3 : n.toNat ≤ 3) (a b c : Byte) :
    (encDataSymbols al n a b c).length = n.toNat + 1 := by
  rw [encDataSymbols_eq al h3, List.length_map, List.length_range]

/-- Padding is appended to the data symbols, none with PEN = 0. -/
theorem encSymbols_eq (g : BitVec 16) (n : BitVec 3) (a b c : Byte) :
    encSymbols g n a b c = encDataSymbols (cfgAlpha g) n a b c ++
      if cfgPen g then List.replicate (3 - n.toNat) (cfgPadc g) else [] := by
  rw [encSymbols, Nat.add_sub_add_right 3 1 n.toNat]
  split
  · rfl
  · rw [List.append_nil]

theorem length_encSymbols (g : BitVec 16) {n : BitVec 3} (h3 : n.toNat ≤ 3) (a b c : Byte) :
    (encSymbols g n a b c).length = if cfgPen g then 4 else n.toNat + 1 := by
  rw [encSymbols_eq, List.length_append, length_encDataSymbols _ h3]
  split
  · rw [List.length_replicate]
    omega
  · rw [List.length_nil, Nat.add_zero]

/-! ## The response -/

theorem rspCnt_encResponse (g : BitVec 16) (n : BitVec 3) (a b c : Byte) :
    (rspCnt (encResponse g n a b c)).toNat = (encSymbols g n a b c).length := by
  have hle := length_encSymbols_le g n a b c
  rw [encResponse, rspCnt_mkResponse, BitVec.toNat_ofNat]
  exact Nat.mod_eq_of_lt (by omega)

/-- Bits 47:32 of the response are 0. -/
theorem encResponse_high_bits (g : BitVec 16) (n : BitVec 3) (a b c : Byte) :
    (encResponse g n a b c).extractLsb' 32 16 = 0#16 := by
  rw [encResponse, extractLsb'_mkResponse _ _ _ _ _ _ (by norm_num)]
  exact BitVec.extractLsb'_append_eq_left

/-- Byte `p` of the low half is symbol `p`, 0x00 past the last symbol. -/
theorem fieldByte_encResponse (g : BitVec 16) (n : BitVec 3) (a b c : Byte) {p : Nat}
    (hp : p < 4) :
    fieldByte 4 p (encResponse g n a b c) = (encSymbols g n a b c).getD p 0x00#8 := by
  have hpacked : fieldByte 4 p (encResponse g n a b c) =
      fieldByte 4 p (pack4 (encSymbols g n a b c)) := by
    rw [fieldByte, encResponse, extractLsb'_mkResponse _ _ _ _ _ _ (by omega),
      extractLsb'_append_low _ _ _ _ (by omega), fieldByte]
  rw [hpacked, fieldByte_pack4 _ _ hp, packByte]

/-- Settles O17: one data symbol more than bytes, and CNT is the number of symbols. -/
theorem encSymbolCount : Obligations.EncSymbolCount := by
  intro n a b c s _ h3
  refine ⟨length_encDataSymbols _ h3 a b c, _, exec_enc_eq n a b c s, ?_⟩
  rw [rspCnt_encResponse, length_encSymbols _ h3]

/-- Settles O18: the response is a function of the word and of `CODEC_CFG`. -/
theorem encKeepsNoState : Obligations.EncKeepsNoState := by
  intro n a b c s s' _ _ hcfg
  refine ⟨encResponse (readCfg s) n a b c, exec_enc_eq n a b c s, ?_⟩
  rw [hcfg]
  exact exec_enc_eq n a b c s'

/-! ## ILLEGAL words (30_encoding.md R66, R68) -/

theorem enc_reserved_eq_zero_iff (C : CmdWord) :
    C &&& 0x00F8FFFFFF000000#64 = 0#64 ↔
      C.extractLsb' 51 5 = 0#5 ∧ C.extractLsb' 24 24 = 0#24 := by
  rw [and_two_field_mask_eq_iff (i := 51) (m := 5) (j := 24) (n := 24) (by norm_num) rfl,
    extractLsb'_eq_zero_iff, extractLsb'_eq_zero_iff, BitVec.toNat_zero]
  omega

theorem decode_error_of_enc_reserved {C : CmdWord} (hopc : opcOf C = 0x10#8)
    (hres : C &&& 0x00F8FFFFFF000000#64 ≠ 0#64) : decode C = .error .reservedBitSet := by
  rw [decode_of_enc_opcode hopc, decodeEnc, if_neg (mt (enc_reserved_eq_zero_iff C).2 hres)]

theorem decode_error_of_enc_count {C : CmdWord} (hopc : opcOf C = 0x10#8)
    (hcnt : ¬(1 ≤ (cntOf C).toNat ∧ (cntOf C).toNat ≤ 3)) : ∃ why, decode C = .error why := by
  rw [decode_of_enc_opcode hopc, decodeEnc, if_neg (mt (encCountOk_iff (cntOf C)).1 hcnt)]
  split <;> exact ⟨_, rfl⟩

/-- Settles O15: the data symbols are those of the group's number, the response carries the padded
symbols, and the decoder refuses a reserved bit or a count out of range. -/
theorem encRespondsTheGroupsSymbols : Obligations.EncRespondsTheGroupsSymbols := by
  refine ⟨?responds, ?illegal⟩
  case responds =>
    intro n a b c s h1 h3
    refine ⟨_, exec_enc_eq n a b c s, encSymbols (readCfg s) n a b c, ?_,
      rspOpc_mkResponse _ _ _ _, rspSt_mkResponse _ _ _ _, rspBit51_mkResponse _ _ _ _,
      rspCnt_encResponse _ n a b c, encResponse_high_bits _ n a b c,
      fun p hp => fieldByte_encResponse _ n a b c hp⟩
    rw [encSymbols_eq, encDataSymbols_eq _ h3, encGroup_toNat h1 h3]
  case illegal =>
    intro C s hopc hbad
    have hrefused : ∃ why, decode C = .error why :=
      hbad.elim (fun hres => ⟨_, decode_error_of_enc_reserved hopc hres⟩)
        (decode_error_of_enc_count hopc)
    obtain ⟨why, hwhy⟩ := hrefused
    rw [executeWord_of_decode_error hwhy, hopc]

end Sys2Proof.Machine
end

section
/-! The decoder's regrouper (42_decode.md R103): its three bytes as sums, and as windows of the four
values' 24 bits. -/

namespace Sys2Proof.Machine

/-! ## The bytes as sums -/

/-- Joined bits that do not overlap and do not overflow are a sum. -/
theorem toNat_shiftLeft_or {x y : Byte} {j : Nat} (hx : x.toNat * 2 ^ j < 2 ^ 8)
    (hy : y.toNat < 2 ^ j) : ((x <<< j) ||| y).toNat = x.toNat * 2 ^ j + y.toNat := by
  rw [BitVec.toNat_or, BitVec.toNat_shiftLeft, Nat.shiftLeft_eq, Nat.mod_eq_of_lt hx,
    ← Nat.shiftLeft_eq, Nat.shiftLeft_add_eq_or_of_lt hy]

theorem toNat_widened (v : Sextet) : (v.setWidth 8).toNat = v.toNat :=
  BitVec.toNat_setWidth_of_le (by norm_num)

theorem toNat_widened_shiftRight (v : Sextet) (k : Nat) :
    (v.setWidth 8 >>> k).toNat = v.toNat / 2 ^ k := by
  rw [BitVec.toNat_ushiftRight, Nat.shiftRight_eq_div_pow, toNat_widened]

theorem toNat_widened_and_mask (v : Sextet) {mask : Byte} {i : Nat}
    (hmask : mask.toNat = 2 ^ i - 1) : (v.setWidth 8 &&& mask).toNat = v.toNat % 2 ^ i := by
  rw [BitVec.toNat_and, hmask, Nat.and_two_pow_sub_one_eq_mod, toNat_widened]

theorem decByte1_toNat (a b : Sextet) : (decByte1 a b).toNat = a.toNat * 4 + b.toNat / 16 := by
  have ha := toNat_widened a
  have hb := toNat_widened_shiftRight b 4
  rw [decByte1, toNat_shiftLeft_or (by omega) (by omega), ha, hb]
  rfl

theorem decByte2_toNat (b c : Sextet) :
    (decByte2 b c).toNat = b.toNat % 16 * 16 + c.toNat / 4 := by
  have hb : (b.setWidth 8 &&& 15#8).toNat = b.toNat % 2 ^ 4 := toNat_widened_and_mask b rfl
  have hc := toNat_widened_shiftRight c 2
  rw [decByte2, toNat_shiftLeft_or (by omega) (by omega), hb, hc]
  rfl

theorem decByte3_toNat (c d : Sextet) : (decByte3 c d).toNat = c.toNat % 4 * 64 + d.toNat := by
  have hc : (c.setWidth 8 &&& 3#8).toNat = c.toNat % 2 ^ 2 := toNat_widened_and_mask c rfl
  have hd := toNat_widened d
  rw [decByte3, toNat_shiftLeft_or (by omega) (by omega), hc, hd]
  rfl

/-! ## The bytes as windows -/

theorem decGroup_toNat (a b c d : Sextet) :
    (a ++ b ++ c ++ d).toNat = ((a.toNat * 2 ^ 6 + b.toNat) * 2 ^ 6 + c.toNat) * 2 ^ 6 + d.toNat := by
  rw [toNat_append_eq_add, toNat_append_eq_add, toNat_append_eq_add]

theorem decByte1_eq_window (a b c d : Sextet) :
    decByte1 a b = (a ++ b ++ c ++ d).extractLsb' 16 8 := by
  apply BitVec.eq_of_toNat_eq
  rw [decByte1_toNat, toNat_extractLsb'_eq, decGroup_toNat]
  omega

theorem decByte2_eq_window (a b c d : Sextet) :
    decByte2 b c = (a ++ b ++ c ++ d).extractLsb' 8 8 := by
  apply BitVec.eq_of_toNat_eq
  rw [decByte2_toNat, toNat_extractLsb'_eq, decGroup_toNat]
  omega

theorem decByte3_eq_window (a b c d : Sextet) :
    decByte3 c d = (a ++ b ++ c ++ d).extractLsb' 0 8 := by
  apply BitVec.eq_of_toNat_eq
  rw [decByte3_toNat, toNat_extractLsb'_eq, decGroup_toNat]
  omega

/-! ## The positions -/

/-- The flag and value that stand for a position's value, none where it is unresolved (R101). -/
def laneOf (r : Option Sextet) : Lane 6 := ⟨r.isSome, r.getD 0#6⟩

theorem laneOf_value_of_unresolved {r : Option Sextet} (h : (laneOf r).present = false) :
    (laneOf r).value = 0#6 := by
  cases r with
  | none => rfl
  | some v => cases h

theorem decLane_eq_laneOf (al : Alphabet) (n : BitVec 3) (i : Nat) (x : Symbol) :
    decLane al n i x = laneOf (if i < n.toNat then decLut al x else none) := by
  unfold decLane
  split
  · cases decLut al x <;> rfl
  · rfl

/-- Whatever a group emits is among the regrouper's three bytes. -/
theorem mem_decEmit {r0 r1 r2 r3 : Lane 6} {x : Byte} (h : x ∈ decEmit r0 r1 r2 r3) :
    x = decByte1 r0.value r1.value ∨ x = decByte2 r1.value r2.value ∨
      x = decByte3 r2.value r3.value := by
  unfold decEmit at h
  split at h
  · rw [List.mem_append, List.mem_append, List.mem_singleton, List.mem_ite_nil_right,
      List.mem_ite_nil_right, List.mem_singleton, List.mem_singleton] at h
    obtain (h1 | ⟨-, h2⟩) | ⟨-, h3⟩ := h
    · exact .inl h1
    · exact .inr (.inl h2)
    · exact .inr (.inr h3)
  · cases h

/-- Settles O21: a position is `laneOf` its value, and the three bytes are windows of the values'
24 bits. -/
theorem decRegrouperIsTheConcatenation : Obligations.DecRegrouperIsTheConcatenation := by
  refine ⟨?unresolved, fun _ _ _ _ _ hx => mem_decEmit hx, fun a b c d => ⟨_, rfl,
    decByte1_eq_window a b c d, decByte2_eq_window a b c d, decByte3_eq_window a b c d,
    rfl, rfl, rfl⟩⟩
  case unresolved =>
    intro al n i x h
    rw [decLane_eq_laneOf] at h ⊢
    exact laneOf_value_of_unresolved h

end Sys2Proof.Machine
end

section
/-! DEC (42_decode.md R100 to R105): the bytes of a group, the response that carries them, and the
words the decoder refuses. -/

namespace Sys2Proof.Machine

/-! ## The bytes -/

/-- With a count in range the first symbol is present, and the fourth at the largest count alone. -/
theorem decBytes_eq (al : Alphabet) {n : BitVec 3} (h1 : 1 ≤ n.toNat) (h4 : n.toNat ≤ 4)
    (w x y z : Symbol) :
    decBytes al n w x y z =
      decEmit (laneOf (decLut al w)) (laneOf (if 2 ≤ n.toNat then decLut al x else none))
        (laneOf (if 3 ≤ n.toNat then decLut al y else none))
        (laneOf (if n.toNat = 4 then decLut al z else none)) := by
  have hfourth : 3 < n.toNat ↔ n.toNat = 4 := by omega
  simp only [decBytes, decLane_eq_laneOf, if_pos (Nat.zero_lt_of_lt h1), hfourth,
    Nat.succ_le_iff]

/-- R102: a group that cannot start emits nothing. -/
theorem decEmit_of_unresolved_start {r0 r1 : Option Sextet} (r2 r3 : Lane 6)
    (h : r0 = none ∨ r1 = none) : decEmit (laneOf r0) (laneOf r1) r2 r3 = [] := by
  obtain rfl | rfl := h
  · rfl
  · cases r0 <;> rfl

/-- R105, with the bytes as sums of the values. -/
theorem decEmit_of_resolved_start (a b : Sextet) (r2 r3 : Option Sextet) :
    decEmit (laneOf (some a)) (laneOf (some b)) (laneOf r2) (laneOf r3) =
      [BitVec.ofNat 8 (a.toNat * 4 + b.toNat / 16)] ++
        (if r2.isSome then [BitVec.ofNat 8 (b.toNat % 16 * 16 + (r2.getD 0#6).toNat / 4)] else []) ++
        (if r3.isSome then [BitVec.ofNat 8 ((r2.getD 0#6).toNat % 4 * 64 + (r3.getD 0#6).toNat)]
          else []) := by
  simp only [← decByte1_toNat, ← decByte2_toNat, ← decByte3_toNat, BitVec.ofNat_toNat,
    BitVec.setWidth_eq]
  rfl

/-- A count of 1 leaves the second symbol absent. -/
theorem decBytes_of_dropped {al : Alphabet} {n : BitVec 3} {w x : Symbol} (h1 : 1 ≤ n.toNat)
    (h4 : n.toNat ≤ 4) (y z : Symbol)
    (h : decLut al w = none ∨ decLut al x = none ∨ n.toNat = 1) : decBytes al n w x y z = [] := by
  rw [decBytes_eq al h1 h4]
  apply decEmit_of_unresolved_start
  refine h.imp_right fun hsecond => ?_
  obtain hx | hn := hsecond
  · rw [hx, ite_self]
  · rw [if_neg (by omega)]

/-! ## The response -/

theorem rspCnt_decResponse (al : Alphabet) (n : BitVec 3) (w x y z : Symbol) :
    rspCnt (decResponse al n w x y z) = BitVec.ofNat 3 (decBytes al n w x y z).length :=
  rspCnt_mkResponse _ _ _ _

theorem rspCnt_decResponse_toNat (al : Alphabet) (n : BitVec 3) (w x y z : Symbol) :
    (rspCnt (decResponse al n w x y z)).toNat = (decBytes al n w x y z).length := by
  have hle := length_decBytes_le al n w x y z
  rw [rspCnt_decResponse, BitVec.toNat_ofNat]
  exact Nat.mod_eq_of_lt (by omega)

theorem rspSt_decResponse (al : Alphabet) (n : BitVec 3) (w x y z : Symbol) :
    rspSt (decResponse al n w x y z) = 0#4 := rspSt_mkResponse _ _ _ _

/-- Bits 47:24 of the response are 0. -/
theorem decResponse_high_bits (al : Alphabet) (n : BitVec 3) (w x y z : Symbol) :
    (decResponse al n w x y z).extractLsb' 24 24 = 0#24 := by
  rw [decResponse, extractLsb'_mkResponse _ _ _ _ _ _ (by norm_num)]
  exact BitVec.extractLsb'_append_eq_left

/-- Byte `p` of the low 24 bits is byte `p` of the group, 0x00 past the last. -/
theorem fieldByte_decResponse (al : Alphabet) (n : BitVec 3) (w x y z : Symbol) {p : Nat}
    (hp : p < 3) :
    fieldByte 3 p (decResponse al n w x y z) = (decBytes al n w x y z).getD p 0x00#8 := by
  have hpacked : fieldByte 3 p (decResponse al n w x y z) =
      fieldByte 3 p (pack3 (decBytes al n w x y z)) := by
    rw [fieldByte, decResponse, extractLsb'_mkResponse _ _ _ _ _ _ (by omega),
      extractLsb'_append_low _ _ _ _ (by omega), fieldByte]
  rw [hpacked, fieldByte_pack3 _ _ hp, packByte]

theorem decResponse_of_no_bytes {al : Alphabet} {n : BitVec 3} {w x y z : Symbol}
    (h : decBytes al n w x y z = []) : decResponse al n w x y z = 0x2000000000000000#64 := by
  rw [decResponse, h]
  rfl

/-- Settles O22: the status of a DEC response is a constant, and a group without bytes has one
response. -/
theorem decDropsUnresolvableGroupsSilently : Obligations.DecDropsUnresolvableGroupsSilently := by
  refine ⟨fun n w x y z s _ _ => ⟨_, exec_dec_eq n w x y z s, rspSt_decResponse _ n w x y z⟩,
    fun n w x y z s h1 h4 hdrop => ⟨_, exec_dec_eq n w x y z s, ?_⟩⟩
  exact decResponse_of_no_bytes (decBytes_of_dropped h1 h4 y z hdrop)

/-- The fourth value is the whole of byte3 where the third is 0. -/
theorem decByte3_zero (d : Sextet) : decByte3 0#6 d = d.setWidth 8 := by
  apply BitVec.eq_of_toNat_eq
  rw [decByte3_toNat, toNat_widened, BitVec.toNat_zero, Nat.zero_mod, Nat.zero_mul, Nat.zero_add]

/-- Decision D14 of R105: byte3 is emitted without byte2. -/
theorem decBytes_of_unresolved_third {al : Alphabet} {w x y z : Symbol} {a b d : Sextet}
    (hw : decLut al w = some a) (hx : decLut al x = some b) (hy : decLut al y = none)
    (hz : decLut al z = some d) :
    decBytes al 4#3 w x y z = [decByte1 a b, d.setWidth 8] := by
  rw [decBytes_eq al (by decide) (by decide), hw, hx, hy, hz, ← decByte3_zero]
  rfl

/-- Settles O23: the group's bytes are byte1 and byte3, so the third slot is empty. -/
theorem decSkipsOnlyTheUnresolvedThirdByte : Obligations.DecSkipsOnlyTheUnresolvedThirdByte := by
  intro w x y z s a b d hw hx hy hz
  have hbytes := decBytes_of_unresolved_third hw hx hy hz
  refine ⟨_, exec_dec_eq 4#3 w x y z s, ?_, ?_, ?_, ?_⟩
  · rw [rspCnt_decResponse, hbytes]
    rfl
  all_goals
    rw [fieldByte_decResponse _ _ _ _ _ _ (by norm_num), hbytes]
    rfl

/-! ## ILLEGAL words (30_encoding.md R66, R68) -/

theorem dec_reserved_eq_zero_iff (C : CmdWord) :
    C &&& 0x00F8FFFF00000000#64 = 0#64 ↔
      C.extractLsb' 51 5 = 0#5 ∧ C.extractLsb' 32 16 = 0#16 := by
  rw [and_two_field_mask_eq_iff (i := 51) (m := 5) (j := 32) (n := 16) (by norm_num) rfl,
    extractLsb'_eq_zero_iff, extractLsb'_eq_zero_iff, BitVec.toNat_zero]
  omega

theorem decode_error_of_dec_reserved {C : CmdWord} (hopc : opcOf C = 0x20#8)
    (hres : C &&& 0x00F8FFFF00000000#64 ≠ 0#64) : decode C = .error .reservedBitSet := by
  rw [decode_of_dec_opcode hopc, decodeDec, if_neg (mt (dec_reserved_eq_zero_iff C).2 hres)]

theorem decode_error_of_dec_count {C : CmdWord} (hopc : opcOf C = 0x20#8)
    (hcnt : ¬(1 ≤ (cntOf C).toNat ∧ (cntOf C).toNat ≤ 4)) : ∃ why, decode C = .error why := by
  rw [decode_of_dec_opcode hopc, decodeDec, if_neg (mt (decCountOk_iff (cntOf C)).1 hcnt)]
  split <;> exact ⟨_, rfl⟩

/-- Settles O20: the group's bytes are those its positions' values resolve to, the response carries
them, and the decoder refuses a reserved bit or a count out of range. -/
theorem decRespondsTheGroupsBytes : Obligations.DecRespondsTheGroupsBytes := by
  refine ⟨?responds, ?illegal⟩
  case responds =>
    intro n w x y z s h1 h4
    refine ⟨_, exec_dec_eq n w x y z s, _, _, _, _, decBytes (cfgAlpha (readCfg s)) n w x y z,
      rfl, rfl, rfl, rfl, ?dropped, ?emitted, rspOpc_mkResponse _ _ _ _,
      rspSt_decResponse _ n w x y z, rspBit51_mkResponse _ _ _ _,
      rspCnt_decResponse_toNat _ n w x y z, decResponse_high_bits _ n w x y z,
      fun p hp => fieldByte_decResponse _ n w x y z hp⟩
    case dropped =>
      rw [decBytes_eq _ h1 h4]
      exact decEmit_of_unresolved_start _ _
    case emitted =>
      intro a b ha hb
      rw [decBytes_eq _ h1 h4, ha, hb]
      exact decEmit_of_resolved_start a b _ _
  case illegal =>
    intro C s hopc hbad
    have hrefused : ∃ why, decode C = .error why :=
      hbad.elim (fun hres => ⟨_, decode_error_of_dec_reserved hopc hres⟩)
        (decode_error_of_dec_count hopc)
    obtain ⟨why, hwhy⟩ := hrefused
    rw [executeWord_of_decode_error hwhy, hopc]

end Sys2Proof.Machine
end

section
/-! The configuration commands CFG and RDCFG (43_config.md R115, R116): the image a CFG writes, what
the words of the two commands do, and the words the decoder refuses. -/

namespace Sys2Proof.Machine

/-! ## The image of `CODEC_CFG` (10_state.md R23) -/

@[simp] theorem cfgPadc_cfgImage (padc : Symbol) (pen : Bool) (alpha : Alphabet) :
    cfgPadc (cfgImage padc pen alpha) = padc := by
  have hnum := cfgImage_toNat padc pen alpha
  have := pen.toNat_le
  have := alpha.bit.toNat_le
  exact (extractLsb'_eq_iff _ _ _ _).2 (by omega)

@[simp] theorem cfgPen_cfgImage (padc : Symbol) (pen : Bool) (alpha : Alphabet) :
    cfgPen (cfgImage padc pen alpha) = pen := by
  have hnum := cfgImage_toNat padc pen alpha
  have := pen.toNat_le
  have := alpha.bit.toNat_le
  exact (getLsbD_eq_iff _ _ _).2 (by omega)

@[simp] theorem cfgAlpha_cfgImage (padc : Symbol) (pen : Bool) (alpha : Alphabet) :
    cfgAlpha (cfgImage padc pen alpha) = alpha := by
  have hnum := cfgImage_toNat padc pen alpha
  have := alpha.bit.toNat_le
  have hbit : (cfgImage padc pen alpha).getLsbD 0 = alpha.bit :=
    (getLsbD_eq_iff _ _ _).2 (by omega)
  rw [cfgAlpha, hbit, alphabetOfBit_bit]

/-- Bits 7:2 of `CODEC_CFG` read as 0 (10_state.md R27). -/
theorem extractLsb'_readCfg (s : State) : (readCfg s).extractLsb' 2 6 = 0#6 :=
  extractLsb'_and_cfgMask s.codecCfg

/-! ## The reserved bits (30_encoding.md R61, R64) -/

theorem cfg_reserved_eq_zero_iff (C : CmdWord) :
    C &&& 0x00FFFFFFFFFF00FC#64 = 0#64 ↔
      C.extractLsb' 16 40 = 0#40 ∧ C.extractLsb' 2 6 = 0#6 := by
  rw [and_two_field_mask_eq_iff (i := 16) (m := 40) (j := 2) (n := 6) (by norm_num) rfl,
    extractLsb'_eq_zero_iff, extractLsb'_eq_zero_iff, BitVec.toNat_zero]
  omega

theorem rdcfg_reserved_eq_zero_iff (C : CmdWord) :
    C &&& 0x00FFFFFFFFFFFFFF#64 = 0#64 ↔ C.extractLsb' 0 56 = 0#56 := by
  rw [and_two_field_mask_eq_iff (i := 48) (m := 8) (j := 0) (n := 48) (by norm_num) rfl,
    extractLsb'_eq_zero_iff, BitVec.toNat_zero]
  omega

theorem executeWord_of_cfg_reserved {C : CmdWord} (s : State) (hopc : opcOf C = 0x30#8)
    (hres : C &&& 0x00FFFFFFFFFF00FC#64 ≠ 0#64) :
    executeWord C s = .next (respond (illegalResponse 0x30#8) s) := by
  have hrefused : decode C = .error .reservedBitSet := by
    rw [decode_of_cfg_opcode hopc, decodeCfg, if_neg (mt (cfg_reserved_eq_zero_iff C).2 hres)]
  rw [executeWord_of_decode_error hrefused, hopc]

theorem executeWord_of_rdcfg_reserved {C : CmdWord} (s : State) (hopc : opcOf C = 0x31#8)
    (hres : C &&& 0x00FFFFFFFFFFFFFF#64 ≠ 0#64) :
    executeWord C s = .next (respond (illegalResponse 0x31#8) s) := by
  have hrefused : decode C = .error .reservedBitSet := by
    rw [decode_of_rdcfg_opcode hopc, decodeRdcfg,
      if_neg (mt (rdcfg_reserved_eq_zero_iff C).2 hres)]
  rw [executeWord_of_decode_error hrefused, hopc]

/-! ## CFG -/

/-- The response of every CFG (R115). -/
theorem responseOf_cfg (padc : Symbol) (pen : Bool) (alpha : Alphabet) (g : BitVec 16) :
    responseOf (.cfg padc pen alpha) g = 0x3000000000000000#64 := rfl

/-- The image is written whole, whatever `CODEC_CFG` held (20_memory.md R47). -/
@[simp] theorem readCfg_configured_cfg (padc : Symbol) (pen : Bool) (alpha : Alphabet) (s : State) :
    readCfg (configured (.cfg padc pen alpha) s) = cfgImage padc pen alpha := by
  rw [configured, readCfg_writeCfg, cfgImage_and_cfgMask]

/-- Settles O25: the image written has the three fields, the response is a constant, and a word with
a reserved bit is refused by the decoder. -/
theorem cfgWritesTheWholeConfiguration : Obligations.CfgWritesTheWholeConfiguration := by
  refine ⟨fun padc pen alpha s => ?writes, fun C s hopc hres =>
    ⟨_, executeWord_of_cfg_reserved s hopc hres, rfl, rfl⟩⟩
  case writes =>
    refine ⟨_, exec_eq (.cfg padc pen alpha) s, by simp, by simp, by simp, extractLsb'_readCfg _,
      ?queue, configured_rspRaised _ s, configured_cmdOffer _ s, configured_edges _ s,
      configured_accepted _ s, configured_delivered _ s⟩
    case queue => rw [respond_rspq, configured_rspq, responseOf_cfg]

/-! ## RDCFG -/

/-- Settles O26: the payload is the image `readCfg` gives, and a word with a reserved bit is refused
by the decoder. -/
theorem rdcfgRespondsTheConfiguration : Obligations.RdcfgRespondsTheConfiguration := by
  refine ⟨fun s => ?responds, fun C s => executeWord_of_rdcfg_reserved s⟩
  case responds =>
    have hpayload : rspPayload (responseOf .rdcfg (readCfg s)) = (readCfg s).setWidth 48 :=
      rspPayload_mkResponse _ _ _ _
    refine ⟨_, exec_eq .rdcfg s, rspOpc_mkResponse _ _ _ _, rspSt_mkResponse _ _ _ _,
      rspBit51_mkResponse _ _ _ _, rspCnt_mkResponse _ _ _ _, hpayload, ?reserved, ?reset⟩
    case reserved =>
      rw [hpayload, BitVec.extractLsb'_setWidth_of_le (by norm_num), extractLsb'_readCfg]
    case reset =>
      rintro rfl
      decide

/-! ## CFG and RDCFG one after another -/

/-- The word of a well-formed command configures as the command. -/
theorem wordConfigured_encode {i : Instr} (hwf : i.wf = true) (s : State) :
    wordConfigured (encode i) s = configured i s := by
  rw [wordConfigured, decodeOfEncodeIsTheCommand i hwf]

/-- A CFG's word leaves its image in `CODEC_CFG`, whatever was there. -/
theorem accepting_cfg_codecCfg (padc : Symbol) (pen : Bool) (alpha : Alphabet) (s : State) :
    (accepting (encode (.cfg padc pen alpha)) s).codecCfg = cfgImage padc pen alpha := by
  rw [accepting, respond_codecCfg, wordConfigured_encode rfl, configured, writeCfg_codecCfg,
    cfgImage_and_cfgMask]

theorem readCfg_accepting_cfg (padc : Symbol) (pen : Bool) (alpha : Alphabet) (s : State) :
    readCfg (accepting (encode (.cfg padc pen alpha)) s) = cfgImage padc pen alpha := by
  rw [readCfg, accepting_cfg_codecCfg, cfgImage_and_cfgMask]

/-- RDCFG's response word is its opcode and the image at the low end (R116). -/
theorem responseOf_rdcfg_eq_append (g : BitVec 16) :
    responseOf .rdcfg g = 0x31#8 ++ 0#40 ++ g := by
  have hresponse : (responseOf .rdcfg g).toNat =
      49 * 2 ^ 56 + 0 * 2 ^ 52 + 0 * 2 ^ 48 + (g.setWidth 48).toNat := mkResponse_toNat _ _ _ _
  have hword : (0x31#8 ++ 0#40 ++ g).toNat = (49 * 2 ^ 40 + 0) * 2 ^ 16 + g.toNat := by
    rw [toNat_append_eq_add, toNat_append_eq_add]
    rfl
  apply BitVec.eq_of_toNat_eq
  rw [hresponse, BitVec.toNat_setWidth_of_le (by norm_num)]
  refine Eq.trans ?_ hword.symm
  omega

/-- Settles O27: the RDCFG finds the image of the CFG before it, and a second CFG writes the same
image over it. -/
theorem cfgIsReadBackAndIdempotent : Obligations.CfgIsReadBackAndIdempotent := by
  intro padc pen alpha s
  refine ⟨_, _, (runWords_cons _ _ s).trans (runWords_cons _ [] _),
    (runWords_cons _ _ s).trans ((runWords_cons _ _ _).trans (runWords_cons _ [] _)), ?answers,
    accepting_codecCfg_congr (encode .rdcfg) ?idempotent⟩
  case answers =>
    rw [answers_cons, answers_cons, answers_nil, wordResponse_encode rfl, wordResponse_encode rfl,
      responseOf_cfg, readCfg_accepting_cfg, responseOf_rdcfg_eq_append]
  case idempotent =>
    exact (accepting_cfg_codecCfg padc pen alpha s).trans
      (accepting_cfg_codecCfg padc pen alpha _).symm

end Sys2Proof.Machine
end

section
/-! Whole messages (41_encode.md R97, 42_decode.md R108): the groups a host frames are answered
under one configuration, each group's response carries what the source makes of the group, and so
the message's text and bytes are the source's. -/

namespace Sys2Proof.Machine

/-! ## The responses to groups -/

/-- A well-formed command whose word leaves `CODEC_CFG` as it finds it. -/
def LeavesConfig (i : Instr) : Prop := i.wf = true ∧ ∀ g, configAfter (encode i) g = g

theorem leavesConfig_enc {n : BitVec 3} (a b c : Byte) (hn : encCountOk n = true) :
    LeavesConfig (.enc n a b c) :=
  ⟨hn, fun g => by rw [configAfter, decode_encode_enc a b c hn]⟩

theorem leavesConfig_dec {n : BitVec 3} (w x y z : Symbol) (hn : decCountOk n = true) :
    LeavesConfig (.dec n w x y z) :=
  ⟨hn, fun g => by rw [configAfter, decode_encode_dec w x y z hn]⟩

/-- Commands that leave `CODEC_CFG` alone are all answered under the one they find. -/
theorem answers_map_encode {is : List Instr} (his : ∀ i ∈ is, LeavesConfig i) (s : State) :
    answers (is.map encode) s = is.map fun i => responseOf i (readCfg s) := by
  induction is generalizing s with
  | nil => exact answers_nil s
  | cons i is ih =>
    obtain ⟨⟨hwf, hkeeps⟩, htail⟩ := List.forall_mem_cons.1 his
    rw [List.map_cons, answers_cons, wordResponse_encode hwf, ih htail, readCfg_accepting, hkeeps,
      List.map_cons]

theorem leavesConfig_of_mem_encGroups (m : List Byte) : ∀ i ∈ encGroups m, LeavesConfig i := by
  induction m using encGroups.induct with
  | case1 => exact List.forall_mem_nil _
  | case2 a => exact List.forall_mem_singleton.2 (leavesConfig_enc _ _ _ rfl)
  | case3 a b => exact List.forall_mem_singleton.2 (leavesConfig_enc _ _ _ rfl)
  | case4 a b c rest ih => exact List.forall_mem_cons.2 ⟨leavesConfig_enc _ _ _ rfl, ih⟩

theorem leavesConfig_of_mem_decGroups (t : List Symbol) : ∀ i ∈ decGroups t, LeavesConfig i := by
  induction t using decGroups.induct with
  | case1 => exact List.forall_mem_nil _
  | case2 w => exact List.forall_mem_singleton.2 (leavesConfig_dec _ _ _ _ rfl)
  | case3 w x => exact List.forall_mem_singleton.2 (leavesConfig_dec _ _ _ _ rfl)
  | case4 w x y => exact List.forall_mem_singleton.2 (leavesConfig_dec _ _ _ _ rfl)
  | case5 w x y z rest ih => exact List.forall_mem_cons.2 ⟨leavesConfig_dec _ _ _ _ rfl, ih⟩

/-! ## What a response carries -/

/-- Reading a list out of a field of `K` entries gives the list back. -/
theorem take_map_getD_range {α : Type} {l : List α} {K : Nat} (h : l.length ≤ K) (d : α) :
    ((List.range K).map fun p => l.getD p d).take l.length = l := by
  rw [← List.map_take, List.take_range, Nat.min_eq_left h]
  refine List.ext_getElem (by simp) fun p _ hp => ?_
  rw [List.getElem_map, List.getElem_range, List.getD_eq_getElem l d hp]

theorem encPayload_encResponse (g : BitVec 16) (n : BitVec 3) (a b c : Byte) :
    encPayload (encResponse g n a b c) = encSymbols g n a b c := by
  have hfields : unpack 4 (encResponse g n a b c) =
      (List.range 4).map fun p => (encSymbols g n a b c).getD p 0x00#8 :=
    List.map_congr_left fun p hp => fieldByte_encResponse g n a b c (List.mem_range.1 hp)
  rw [encPayload, hfields, rspCnt_encResponse, take_map_getD_range (length_encSymbols_le g n a b c)]

theorem decPayload_decResponse (al : Alphabet) (n : BitVec 3) (w x y z : Symbol) :
    decPayload (decResponse al n w x y z) = decBytes al n w x y z := by
  have hfields : unpack 3 (decResponse al n w x y z) =
      (List.range 3).map fun p => (decBytes al n w x y z).getD p 0x00#8 :=
    List.map_congr_left fun p hp => fieldByte_decResponse al n w x y z (List.mem_range.1 hp)
  rw [decPayload, hfields, rspCnt_decResponse_toNat,
    take_map_getD_range (length_decBytes_le al n w x y z)]

/-! ## Encoding -/

/-- The data symbols of a group are those of the source's expressions (41_encode.md R91). -/
theorem encDataSymbols_append (al : Alphabet) {n : BitVec 3} {a b c a' b' c' : Byte}
    (h : encGroup n a b c = a' ++ b' ++ c') :
    encDataSymbols al n a b c =
      ([a' >>> 2, ((a' &&& 3#8) <<< 4) ||| (b' >>> 4), ((b' &&& 15#8) <<< 2) ||| (c' >>> 6),
        c' &&& 63#8].take (n.toNat + 1)).map (bjsSymbol al) := by
  have hsymbol : encLut al = bjsSymbol al ∘ BitVec.setWidth 8 := by
    funext v
    rw [Function.comp_apply, bjsSymbol, BitVec.setWidth_setWidth_of_le _ (by norm_num),
      BitVec.setWidth_eq]
  rw [encDataSymbols, h, hsymbol, ← List.map_map, List.map_take, encValues_append]

theorem encDataSymbols_one (al : Alphabet) (a : Byte) :
    encDataSymbols al 1#3 a 0#8 0#8 = bjsSymbols al [a] := by
  have hgroup : encGroup 1#3 a 0#8 0#8 = a ++ 0#8 ++ 0#8 := by
    rw [encGroup_eq (by decide) (by decide), ite_self, ite_self]
  rw [encDataSymbols_append al hgroup, BitVec.zero_ushiftRight, BitVec.or_zero]
  rfl

theorem encDataSymbols_two (al : Alphabet) (a b : Byte) :
    encDataSymbols al 2#3 a b 0#8 = bjsSymbols al [a, b] := by
  have hgroup : encGroup 2#3 a b 0#8 = a ++ b ++ 0#8 := by
    rw [encGroup_eq (by decide) (by decide), if_pos (by decide), ite_self]
  rw [encDataSymbols_append al hgroup, BitVec.zero_ushiftRight, BitVec.or_zero]
  rfl

theorem encDataSymbols_three (al : Alphabet) (a b c : Byte) :
    encDataSymbols al 3#3 a b c = bjsSymbols al [a, b, c] :=
  encDataSymbols_append al rfl

/-- A full group stands before the rest of the data symbols. -/
theorem bjsSymbols_cons (al : Alphabet) (a b c : Byte) (rest : List Byte) :
    bjsSymbols al (a :: b :: c :: rest) = bjsSymbols al [a, b, c] ++ bjsSymbols al rest := rfl

/-- The source's text with the padding of a configuration: the data symbols, then PADC up to a
multiple of 4 with PEN = 1. -/
theorem bjsEncode_cfgPad (al : Alphabet) (g : BitVec 16) (m : List Byte) :
    bjsEncode al (cfgPad g) m = bjsSymbols al m ++
      if cfgPen g then List.replicate ((4 - (bjsSymbols al m).length % 4) % 4) (cfgPadc g)
      else [] := by
  unfold bjsEncode cfgPad
  cases cfgPen g with
  | true => rfl
  | false => exact (List.append_nil _).symm

/-- A full group needs no padding and does not change the padding of what follows. -/
theorem bjsEncode_cons (al : Alphabet) (g : BitVec 16) (a b c : Byte) (rest : List Byte) :
    bjsEncode al (cfgPad g) (a :: b :: c :: rest) =
      bjsSymbols al [a, b, c] ++ bjsEncode al (cfgPad g) rest := by
  have hlength : (bjsSymbols al (a :: b :: c :: rest)).length % 4 =
      (bjsSymbols al rest).length % 4 := by
    rw [bjsSymbols_cons, List.length_append]
    exact Nat.add_mod_left 4 _
  rw [bjsEncode_cfgPad, bjsEncode_cfgPad, hlength, bjsSymbols_cons, List.append_assoc]

/-- The symbols of the groups, padded group by group, are the source's text padded at its end. -/
theorem flatMap_encGroups (g : BitVec 16) (m : List Byte) :
    (encGroups m).flatMap (fun i => encPayload (responseOf i g)) =
      bjsEncode (cfgAlpha g) (cfgPad g) m := by
  induction m using encGroups.induct with
  | case1 =>
    rw [encGroups, bjsEncode_cfgPad, bjsSymbols]
    exact (ite_self _).symm
  | case2 a =>
    rw [encGroups, List.flatMap_singleton, responseOf, encPayload_encResponse, encSymbols_eq,
      encDataSymbols_one, bjsEncode_cfgPad]
    rfl
  | case3 a b =>
    rw [encGroups, List.flatMap_singleton, responseOf, encPayload_encResponse, encSymbols_eq,
      encDataSymbols_two, bjsEncode_cfgPad]
    rfl
  | case4 a b c rest ih =>
    have hnoPadding : encSymbols g 3#3 a b c = bjsSymbols (cfgAlpha g) [a, b, c] := by
      rw [encSymbols_eq, encDataSymbols_three]
      exact (congrArg _ (ite_self _)).trans (List.append_nil _)
    rw [encGroups, List.flatMap_cons, ih, responseOf, encPayload_encResponse, hnoPadding,
      bjsEncode_cons]

/-- The text of a message sent in groups is the source's (R97). -/
theorem encodeMessage_eq_bjsEncode (m : List Byte) (s : State) :
    encodeMessage m s = bjsEncode (cfgAlpha (readCfg s)) (cfgPad (readCfg s)) m := by
  rw [encodeMessage, answers_map_encode (leavesConfig_of_mem_encGroups m), List.flatMap_map,
    flatMap_encGroups]

/-! ## Decoding -/

/-- The bytes a group emits are those of the source's chunk: windows of the 24 bits its values make,
an unresolved one being 0 (42_decode.md R103). -/
theorem decEmit_eq_bjsChunk (r0 r1 r2 r3 : Option Sextet) :
    decEmit (laneOf r0) (laneOf r1) (laneOf r2) (laneOf r3) = bjsChunk r0 r1 r2 r3 := by
  cases r0 with
  | none => exact decEmit_of_unresolved_start _ _ (.inl rfl)
  | some a =>
    cases r1 with
    | none => exact decEmit_of_unresolved_start _ _ (.inr rfl)
    | some b =>
      rw [bjsChunk, ← decByte1_eq_window, ← decByte2_eq_window, ← decByte3_eq_window]
      rfl

/-- The bytes of the groups are those of the source's chunks. -/
theorem flatMap_decGroups (g : BitVec 16) (t : List Symbol) :
    (decGroups t).flatMap (fun i => decPayload (responseOf i g)) = bjsDecode (cfgAlpha g) t := by
  induction t using decGroups.induct with
  | case1 => rfl
  | case2 w | case3 w x | case4 w x y =>
    rw [decGroups, List.flatMap_singleton, responseOf, decPayload_decResponse,
      decBytes_eq _ (by decide) (by decide), bjsDecode]
    exact decEmit_eq_bjsChunk _ _ _ _
  | case5 w x y z rest ih =>
    rw [decGroups, List.flatMap_cons, ih, responseOf, decPayload_decResponse,
      decBytes_eq _ (by decide) (by decide), bjsDecode]
    exact congrArg (· ++ _) (decEmit_eq_bjsChunk _ _ _ _)

/-- The bytes of a text sent in groups are the source's (R108). -/
theorem decodeMessage_eq_bjsDecode (t : List Symbol) (s : State) :
    decodeMessage t s = bjsDecode (cfgAlpha (readCfg s)) t := by
  rw [decodeMessage, answers_map_encode (leavesConfig_of_mem_decGroups t), List.flatMap_map,
    flatMap_decGroups]

end Sys2Proof.Machine
end

section
/-! The four entry points (43_config.md R117 to R122): a CFG, then the groups of a message. -/

namespace Sys2Proof.Machine

/-! ## Output under the entry's own CFG -/

theorem cfgPad_cfgImage (padc : Symbol) (pen : Bool) (alpha : Alphabet) :
    cfgPad (cfgImage padc pen alpha) = if pen then some padc else none := by
  rw [cfgPad, cfgPen_cfgImage, cfgPadc_cfgImage]

/-- The output of a CFG and the groups of a message is the message's text under that CFG. -/
theorem entryText_cons_cfg (padc : Symbol) (pen : Bool) (al : Alphabet) (m : List Byte)
    (s : State) :
    entryText (.cfg padc pen al :: encGroups m) s =
      bjsEncode al (if pen then some padc else none) m := by
  have hafter : entryText (.cfg padc pen al :: encGroups m) s =
      encodeMessage m (accepting (encode (.cfg padc pen al)) s) := by
    rw [entryText, List.map_cons, answers_cons]
    rfl
  rw [hafter, encodeMessage_eq_bjsEncode, readCfg_accepting_cfg, cfgAlpha_cfgImage, cfgPad_cfgImage]

/-- The output of a CFG and the groups of a text is the text's bytes in the CFG's alphabet. -/
theorem entryBytes_cons_cfg (padc : Symbol) (pen : Bool) (al : Alphabet) (t : List Symbol)
    (s : State) : entryBytes (.cfg padc pen al :: decGroups t) s = bjsDecode al t := by
  have hafter : entryBytes (.cfg padc pen al :: decGroups t) s =
      decodeMessage t (accepting (encode (.cfg padc pen al)) s) := by
    rw [entryBytes, List.map_cons, answers_cons]
    rfl
  rw [hafter, decodeMessage_eq_bjsDecode, readCfg_accepting_cfg, cfgAlpha_cfgImage]

/-! ## The padding argument -/

/-- A padding argument of at most one symbol configures that padding (R117). -/
theorem paddingConfig_of_length_le_one {padding : List Symbol} (h : padding.length ≤ 1) :
    ∃ pen padc, paddingConfig padding = .ok (pen, padc) ∧
      (if pen then some padc else none) = padding.head? := by
  cases padding with
  | nil => exact ⟨false, 0x00#8, rfl, rfl⟩
  | cons x rest =>
    obtain rfl : rest = [] := List.length_eq_zero_iff.1 (Nat.le_zero.1 (Nat.le_of_succ_le_succ h))
    exact ⟨true, x, rfl, rfl⟩

/-- A longer one is refused (R118). -/
theorem paddingConfig_of_two_le_length {padding : List Symbol} (h : 2 ≤ padding.length) :
    paddingConfig padding = .error .paddingTooLong := by
  obtain _ | ⟨x, _ | ⟨y, rest⟩⟩ := padding
  · cases h
  · exact absurd h (Nat.not_succ_le_self 1)
  · rfl

/-- Settles O57: each entry point is a CFG with its alphabet and the padding's configuration, then
the groups of its argument. -/
theorem entryPointsGiveTheSourcesResults : Obligations.EntryPointsGiveTheSourcesResults := by
  refine ⟨fun m padding s hlen => ?results, fun m padding hlen => ?refused⟩
  case results =>
    obtain ⟨pen, padc, hconfig, hpad⟩ := paddingConfig_of_length_le_one hlen
    have honeShot (al : Alphabet) (groups : List Instr) :
        oneShot al padding groups = .ok (.cfg padc pen al :: groups) := by rw [oneShot, hconfig]
    rw [← hpad]
    refine ⟨⟨_, honeShot .standard _, entryText_cons_cfg padc pen .standard m s⟩,
      ⟨_, honeShot .urlSafe _, entryText_cons_cfg padc pen .urlSafe m s⟩,
      ⟨_, honeShot .standard _, entryBytes_cons_cfg padc pen .standard m s⟩,
      ⟨_, ?urlDecode, entryBytes_cons_cfg 0x00#8 false .urlSafe m s⟩⟩
    case urlDecode => rw [entryUrlDecode, hconfig]
  case refused =>
    have hconfig := paddingConfig_of_two_le_length hlen
    have honeShot (al : Alphabet) (groups : List Instr) :
        oneShot al padding groups = .error .paddingTooLong := by rw [oneShot, hconfig]
    refine ⟨honeShot _ _, honeShot _ _, honeShot _ _, ?urlDecode⟩
    case urlDecode => rw [entryUrlDecode, hconfig]

end Sys2Proof.Machine
end

section
/-! ILLEGAL, the one exceptional event (60_exceptions.md R130, R131): which words raise it, read off
the opcode table, and what it leaves unchanged; and an edge at which nothing happens (R145). -/

namespace Sys2Proof.Machine

/-! ## The rows of the opcode table -/

theorem exists_row_of_instr (i : Instr) : ∃ r ∈ opcodeTable, i.mnemonic = r.mnemonic := by
  cases i <;> simp [opcodeTable, Instr.mnemonic]

/-- Every mask of the table covers the opcode byte. -/
theorem opcOf_eq_of_fixedBits {r : OpcodeRow} (hr : r ∈ opcodeTable) {C : CmdWord}
    (h : C &&& r.mask = r.value) : opcOf C = opcOf r.value := by
  have hmask : ∀ r ∈ opcodeTable, opcOf r.mask = BitVec.allOnes 8 := by decide
  have hand : opcOf (C &&& r.mask) = opcOf C &&& opcOf r.mask := BitVec.extractLsb'_and
  rw [← h, hand, hmask r hr, BitVec.and_allOnes]

/-- No two rows of the table have one opcode. -/
theorem row_eq_of_opcode_eq {r r' : OpcodeRow} (hr : r ∈ opcodeTable) (hr' : r' ∈ opcodeTable)
    (h : opcOf r.value = opcOf r'.value) : r = r' := by
  have hnodup : (opcodeTable.map fun r => opcOf r.value).Nodup := by decide
  exact List.inj_on_of_nodup_map hnodup hr hr' h

/-- What a row asks of CNT, by the row's opcode (30_encoding.md R68). -/
theorem countOk_iff_of_row {r : OpcodeRow} (hr : r ∈ opcodeTable) (C : CmdWord) :
    r.countOk C = true ↔
      (opcOf r.value = 0x10#8 → 1 ≤ (cntOf C).toNat ∧ (cntOf C).toNat ≤ 3) ∧
      (opcOf r.value = 0x20#8 → 1 ≤ (cntOf C).toNat ∧ (cntOf C).toNat ≤ 4) := by
  simp only [opcodeTable, List.mem_cons, List.not_mem_nil, or_false] at hr
  rw [← encCountOk_iff, ← decCountOk_iff]
  obtain rfl | rfl | rfl | rfl | rfl | rfl := hr <;> simp [OpcodeRow.countOk, opcOf]

/-! ## The words that raise ILLEGAL -/

/-- The decoder refuses a word exactly when no row of R65's table takes it: the contrapositive of
`commandWordsAreTheTableRows`, all rows together. -/
theorem decode_error_iff_no_row (C : CmdWord) :
    (∃ why, decode C = .error why) ↔
      ∀ r ∈ opcodeTable, C &&& r.mask = r.value → ¬r.countOk C = true := by
  cases hdecode : decode C with
  | ok i =>
    obtain ⟨r, hr, hmnemonic⟩ := exists_row_of_instr i
    obtain ⟨hbits, hcount⟩ := (commandWordsAreTheTableRows r hr C).1 ⟨i, hdecode, hmnemonic⟩
    exact iff_of_false (fun ⟨why, h⟩ => nomatch h) (fun h => h r hr hbits hcount)
  | error why =>
    refine iff_of_true ⟨why, rfl⟩ fun r hr hbits hcount => ?_
    obtain ⟨i, hi, _⟩ := (commandWordsAreTheTableRows r hr C).2 ⟨hbits, hcount⟩
    exact nomatch hdecode.symm.trans hi

theorem rspSt_responseOf (i : Instr) (g : BitVec 16) : rspSt (responseOf i g) = 0x0#4 := by
  cases i <;> exact rspSt_mkResponse _ .ok _ _

/-- Settles O4: the one row that can accept a word is the row of its opcode, so the causes are that
there is no such row, that its fixed bits are not met, and that its CNT is out of range. -/
theorem illegalHasExactlyThreeCauses : Obligations.IllegalHasExactlyThreeCauses := by
  refine ⟨fun C => ?causes, ?executes, fun C s why h => executeWord_of_decode_error h s⟩
  case causes =>
    rw [decode_error_iff_no_row]
    constructor
    · intro hnone
      by_cases hassigned : ∃ r ∈ opcodeTable, opcOf C = opcOf r.value
      · obtain ⟨r, hr, hopc⟩ := hassigned
        by_cases hbits : C &&& r.mask = r.value
        · have hcount := hnone r hr hbits
          rw [countOk_iff_of_row hr, ← hopc, not_and_or, Classical.not_imp, Classical.not_imp]
            at hcount
          exact .inr (.inr hcount)
        · exact .inr (.inl ⟨r, hr, hopc, hbits⟩)
      · exact .inl fun r hr hopc => hassigned ⟨r, hr, hopc⟩
    · intro hcause r hr hbits hcount
      have hopc := opcOf_eq_of_fixedBits hr hbits
      rw [countOk_iff_of_row hr, ← hopc] at hcount
      obtain hunassigned | ⟨r', hr', hopc', hreserved⟩ | ⟨henc, hcnt⟩ | ⟨hdec, hcnt⟩ := hcause
      · exact hunassigned r hr hopc
      · obtain rfl := row_eq_of_opcode_eq hr hr' (hopc.symm.trans hopc')
        exact hreserved hbits
      · exact hcnt (hcount.1 henc)
      · exact hcnt (hcount.2 hdec)
  case executes =>
    intro C s i h
    have hnext := (executeWord_of_decode h s).trans (exec_eq i s)
    refine ⟨responseOf i (readCfg s), _, hnext, ?_, rspSt_responseOf i _⟩
    rw [respond_rspq, configured_rspq]

/-! ## An ILLEGAL word at an edge -/

/-- The ILLEGAL response as its two fields and 0 in every other bit. -/
theorem illegalResponse_eq_append (opc : BitVec 8) :
    illegalResponse opc = opc ++ 0x1#4 ++ 0#52 := by
  apply BitVec.eq_of_toNat_eq
  rw [illegalResponse, mkResponse_toNat]
  simp only [toNat_append_eq_add, Status.code, BitVec.toNat_ofNat]
  omega

/-- Settles O29: the accepted word only queues the ILLEGAL response on what the ports leave. -/
theorem illegalWordChangesNoStateAndResponds :
    Obligations.IllegalWordChangesNoStateAndResponds := by
  intro s e rest why hedges hr hduty hv hready hdecode
  have hstep : step s = .next (respond (illegalResponse (opcOf e.cmdData))
      (noteAccepted e.cmdData (portActions e { s with edges := rest }))) := by
    rw [step_of_edge hedges,
      clockEdge_of_acceptance (s := { s with edges := rest }) hr hduty
        ((cmdTransfers_iff hr).2 ⟨hv, hready⟩),
      acceptWord, executeWord_of_decode_error hdecode]
  refine ⟨_, hstep, ?config, ?edges, _, ?queue, rfl⟩
  case config => rw [respond_codecCfg, noteAccepted_codecCfg, portActions_codecCfg]
  case edges => rw [respond_edges, noteAccepted_edges, portActions_edges]
  case queue => rw [respond_rspq, noteAccepted_rspq, illegalResponse_eq_append]

/-! ## An edge at which nothing transfers -/

/-- Settles O39: no word is accepted, so the ports act alone, and with no response taken they only
age the queue. -/
theorem idleEdgeKeepsConfigurationAndQueue : Obligations.IdleEdgeKeepsConfigurationAndQueue := by
  refine ⟨?idle, fun s => step_of_no_edge⟩
  intro e s hr hduty hcmd hrsp
  obtain ⟨_, hdelivered, _⟩ := portActions_of_no_transfer hrsp
  exact ⟨_, clockEdge_of_no_acceptance hr hduty hcmd, portActions_codecCfg e s,
    queuedWords_portActions_of_no_transfer hrsp, portActions_accepted e s, hdelivered⟩

end Sys2Proof.Machine
end

section
/-! An edge with `rst` = 1: the signals of the ports there and the state it gives
(70_reset_and_hazards.md R150 to R153). -/

namespace Sys2Proof.Machine

/-! ## Signals while `rst` = 1 -/

variable {e : Edge} (s : State) (hr : e.rst = true)
include hr

theorem cmdReady_of_reset : cmdReady e s = false := by simp [cmdReady, hr]

theorem rspValid_of_reset : rspValid e s = false := by simp [rspValid, hr]

theorem cmdTransfers_of_reset : cmdTransfers e s = false := by
  simp [cmdTransfers, cmdReady_of_reset s hr]

theorem rspTransfers_of_reset : rspTransfers e s = false := by
  simp [rspTransfers, rspValid_of_reset s hr]

end Sys2Proof.Machine
end

section
/-! The state after an edge with `rst` = 1, and the statements about reset (70_reset_and_hazards.md
R151 to R153). -/

namespace Sys2Proof.Machine

/-- R151's value of `CODEC_CFG` has no bit outside the mask, so it reads as it is stored. -/
@[simp] theorem readCfg_resetEdge (s : State) : readCfg (resetEdge s) = 0x3D02#16 := by
  rw [readCfg, resetEdge_codecCfg]
  decide

/-- The reset state takes nothing of the state before it but the edges still to come. -/
theorem resetEdge_eq_reset (s : State) : resetEdge s = { State.reset with edges := s.edges } := rfl

theorem queuedWords_resetEdge (s : State) : queuedWords (resetEdge s) = [] := by
  rw [queuedWords, resetEdge_rspq, List.map_nil]

/-- The host's duty does not enter: a reset edge goes on whatever is offered (log 5). -/
theorem step_of_reset {s : State} {e : Edge} {rest : List Edge} (h : s.edges = e :: rest)
    (hr : e.rst = true) : step s = .next (resetEdge { s with edges := rest }) :=
  (step_of_edge h).trans (clockEdge_of_reset _ hr)

/-- Settles O36: the step gives the state after reset, whose configuration is the constant 0x3D02. -/
theorem resetEdgeGivesTheResetState : Obligations.ResetEdgeGivesTheResetState := by
  intro s e rest hedges hr
  refine ⟨_, step_of_reset hedges hr, resetEdge_codecCfg _, ?alpha, ?pen, ?padc, ?reserved,
    resetEdge_rspq _⟩
  case alpha => rw [readCfg_resetEdge]; decide
  case pen => rw [readCfg_resetEdge]; decide
  case padc => rw [readCfg_resetEdge]; decide
  case reserved => rw [resetEdge_codecCfg]; decide

/-- Settles O37: the step gives the state after reset, which is the model's reset state but for the
edges. -/
theorem resetEdgeBeginsANewSession : Obligations.ResetEdgeBeginsANewSession := by
  intro s e rest hedges hr
  rw [step_of_reset hedges hr, resetEdge_eq_reset]

/-- Settles O38: `rst` = 1 holds both output signals at 0, so neither port can transfer, and the
edge leaves an empty queue. -/
theorem nothingTransfersDuringReset : Obligations.NothingTransfersDuringReset :=
  fun _ s hr => ⟨cmdReady_of_reset s hr, rspValid_of_reset s hr, cmdTransfers_of_reset s hr,
    rspTransfers_of_reset s hr, _, clockEdge_of_reset s hr, queuedWords_resetEdge s⟩

end Sys2Proof.Machine
end

section
/-! What every command does (20_memory.md R48), one word per command (30_encoding.md R61 to R64),
the closed forms of the size calculators (40_length.md R82, R83), and the invariants at reset. -/

namespace Sys2Proof.Machine

/-! ## Commands -/

theorem rspOpc_responseOf (i : Instr) (g : BitVec 16) : rspOpc (responseOf i g) = i.opcode := by
  cases i <;> exact rspOpc_mkResponse _ _ _ _

/-- Only CFG writes `CODEC_CFG`. -/
theorem configured_of_not_cfg {i : Instr} (h : ∀ padc pen alpha, i ≠ .cfg padc pen alpha)
    (s : State) : configured i s = s := by
  cases i with
  | cfg padc pen alpha => exact absurd rfl (h padc pen alpha)
  | elen | dlen | enc | dec | rdcfg => rfl

/-- Settles O10: `exec` queues `responseOf` on the state that `configured` gives, which differs from
the old one in `CODEC_CFG` at most. -/
theorem everyCommandAppendsOneResponseAndOnlyCfgWrites :
    Obligations.EveryCommandAppendsOneResponseAndOnlyCfgWrites := by
  intro i s
  refine ⟨responseOf i (readCfg s), _, exec_eq i s, ?queue, rspOpc_responseOf i _,
    fun hcfg => ?config, configured_rspRaised i s, configured_cmdOffer i s, configured_edges i s,
    configured_accepted i s, configured_delivered i s⟩
  case queue => rw [respond_rspq, configured_rspq]
  case config => rw [respond_codecCfg, configured_of_not_cfg hcfg]

/-- Settles O11: the function is `responseOf` of the command. -/
theorem queriesArePureFunctionsOfTheConfiguration :
    Obligations.QueriesArePureFunctionsOfTheConfiguration := by
  intro i hcfg
  refine ⟨responseOf i, fun s => ?_⟩
  rw [exec_eq, configured_of_not_cfg hcfg]

/-- Settles O5: each word is the encoder's word of its command. -/
theorem wordsFromTheFormatsDecode : Obligations.WordsFromTheFormatsDecode :=
  ⟨decode_encode_elen true 7#32, decode_encode_dlen 5#32,
    decode_encode_enc (n := 2#3) 0x4D#8 0x61#8 0xFF#8 rfl,
    decode_encode_dec (n := 4#3) 0x62#8 0x47#8 0x51#8 0x3D#8 rfl,
    decode_encode_cfg 0x2A#8 false .urlSafe, decode_encode_rdcfg⟩

/-! ## Lengths -/

/-- The unpadded length of `q` full groups and `r` bytes more. -/
theorem elenResult_unpadded_of_remainder (q : Nat) {r : Nat} (hr : r < 3) :
    elenResult false (3 * q + r) = 4 * q + (if r = 0 then 0 else r + 1) := by
  rw [elenResult_unpadded, elenBase]
  split <;> omega

/-- Settles O14: the padded length and the capacity are counts of groups. -/
theorem lengthClosedForms : Obligations.LengthClosedForms :=
  ⟨fun q _ hr => elenResult_unpadded_of_remainder q hr, elenResult_padded, dlenResult_eq⟩

/-! ## Reset -/

/-- Settles O41: nothing is queued, delivered or raised at reset, and nothing has been accepted. -/
theorem resetMeetsTheInvariant : Obligations.ResetMeetsTheInvariant where
  cfgReservedZero := by rw [State.CfgReservedZero, reset_codecCfg]; decide
  queueBounded := Nat.zero_le _
  raisedIsDue := fun hraised => nomatch hraised
  responsesLegal := List.forall_mem_nil _
  inOrder := inOrder_resetEdge State.reset

end Sys2Proof.Machine
end

section
/-! The texts of whole messages (41_encode.md R97): the source's, of the length ELEN gives, and a
message sent in pieces. -/

namespace Sys2Proof.Machine

/-- Settles O48: group by group the symbols are the source's, and only the last group is padded. -/
theorem encodedMessageIsTheSourcesText : Obligations.EncodedMessageIsTheSourcesText :=
  encodeMessage_eq_bjsEncode

/-- A full group adds 4 symbols and 3 bytes, on which `elenBase` agrees. -/
theorem length_bjsSymbols (al : Alphabet) (m : List Byte) :
    (bjsSymbols al m).length = elenBase m.length := by
  induction m using encGroups.induct with
  | case1 | case2 | case3 => simp [bjsSymbols, elenBase]
  | case4 a b c rest ih =>
    simp only [bjsSymbols, List.length_cons, ih, elenBase]
    omega

/-- Settles O49: the data symbols number `elenBase`, and the padding fills them up to a multiple
of 4. -/
theorem encodedMessageHasTheElenLength : Obligations.EncodedMessageHasTheElenLength := by
  intro m s
  rw [encodeMessage_eq_bjsEncode, bjsEncode_cfgPad, List.length_append, length_bjsSymbols]
  cases cfgPen (readCfg s) with
  | false => rfl
  | true =>
    obtain ⟨hmod, hlow, hhigh⟩ := elenResult_padded_round m.length
    rw [if_pos rfl, List.length_replicate]
    omega

/-- Settles O50: no group changes `CODEC_CFG`, so the second message's groups are answered under the
configuration of the first's. -/
theorem piecewiseEncodingConcatenates : Obligations.PiecewiseEncodingConcatenates := by
  intro m m' s
  have hm := leavesConfig_of_mem_encGroups m
  have hm' := leavesConfig_of_mem_encGroups m'
  rw [answers_map_encode (List.forall_mem_append.2 ⟨hm, hm'⟩), List.map_append,
    List.flatMap_append, ← answers_map_encode hm, ← answers_map_encode hm']
  rfl

end Sys2Proof.Machine
end

section
/-! The bytes of whole texts (42_decode.md R108, R109, 40_length.md R83): the source's, piece by
piece at multiples of 4 symbols, and DLEN as their capacity. -/

namespace Sys2Proof.Machine

/-- Settles O51: group by group the bytes are those of the source's chunk. -/
theorem decodedTextIsTheSourcesBytes : Obligations.DecodedTextIsTheSourcesBytes :=
  decodeMessage_eq_bjsDecode

/-! ## Splitting a text -/

theorem bjsDecode_append (al : Alphabet) {t : List Symbol} (h : t.length % 4 = 0)
    (t' : List Symbol) : bjsDecode al (t ++ t') = bjsDecode al t ++ bjsDecode al t' := by
  induction t using decGroups.induct with
  | case1 => rfl
  | case2 | case3 | case4 => cases h
  | case5 w x y z rest ih =>
    have hrest : rest.length % 4 = 0 := (Nat.add_mod_right rest.length 4).symm.trans h
    rw [bjsDecode, List.append_assoc, ← ih hrest]
    rfl

/-- Symbols outside the alphabet decode to nothing, in any number. -/
theorem bjsDecode_of_unresolved {al : Alphabet} {t : List Symbol}
    (h : ∀ x ∈ t, decLut al x = none) : bjsDecode al t = [] := by
  have hfirst {x : Symbol} (hx : decLut al x = none) (r1 r2 r3 : Option Sextet) :
      bjsChunk (decLut al x) r1 r2 r3 = [] := by rw [hx]; rfl
  induction t using decGroups.induct with
  | case1 => rfl
  | case2 w | case3 w | case4 w => exact hfirst (h w List.mem_cons_self) _ _ _
  | case5 w x y z rest ih =>
    obtain ⟨hw, -, -, -, hrest⟩ := by simpa only [List.forall_mem_cons] using h
    rw [bjsDecode, hfirst hw, ih hrest, List.nil_append]

/-- Settles O52: the chunks of the first text end where it ends. -/
theorem decodingSplitsAtMultiplesOfFour : Obligations.DecodingSplitsAtMultiplesOfFour := by
  intro t t' s h
  simp only [decodeMessage_eq_bjsDecode, bjsDecode_append _ h]

/-- Settles O53: the excess is decoded apart, to nothing. -/
theorem excessPaddingIsTolerated : Obligations.ExcessPaddingIsTolerated := by
  intro t excess s h hexcess
  rw [decodeMessage_eq_bjsDecode, decodeMessage_eq_bjsDecode, bjsDecode_append _ h,
    bjsDecode_of_unresolved hexcess, List.append_nil]

/-! ## The capacity -/

theorem rspCnt_le_of_mem_decGroups (g : BitVec 16) (t : List Symbol) :
    ∀ i ∈ decGroups t, (rspCnt (responseOf i g)).toNat ≤ 3 := by
  have hdec (n : BitVec 3) (w x y z : Symbol) :
      (rspCnt (responseOf (.dec n w x y z) g)).toNat ≤ 3 := by
    rw [responseOf, rspCnt_decResponse_toNat]
    exact length_decBytes_le _ n w x y z
  induction t using decGroups.induct with
  | case1 => exact List.forall_mem_nil _
  | case2 | case3 | case4 => exact List.forall_mem_singleton.2 (hdec _ _ _ _ _)
  | case5 w x y z rest ih => exact List.forall_mem_cons.2 ⟨hdec _ _ _ _ _, ih⟩

/-- A response with CNT in DEC's range carries 3 bytes exactly when its CNT is 3. -/
theorem length_decPayload_eq_three_iff {r : RspWord} (h : (rspCnt r).toNat ≤ 3) :
    (decPayload r).length = 3 ↔ rspCnt r = 3#3 := by
  have hlength : (decPayload r).length = min (rspCnt r).toNat 3 := List.length_take
  rw [hlength, Nat.min_eq_left h]
  exact BitVec.toNat_inj (y := 3#3)

/-- Responses carry at most 3 bytes each, and 3 bytes each only if each is full. -/
theorem length_flatMap_decPayload (rs : List RspWord) :
    (rs.flatMap decPayload).length ≤ rs.length * 3 ∧
      ((rs.flatMap decPayload).length = rs.length * 3 ↔ ∀ r ∈ rs, (decPayload r).length = 3) := by
  induction rs with
  | nil => exact ⟨Nat.zero_le _, iff_of_true rfl (List.forall_mem_nil _)⟩
  | cons r rs ih =>
    obtain ⟨hle, hfull⟩ := ih
    have hr := length_decPayload_le r
    rw [List.forall_mem_cons, ← hfull, List.flatMap_cons, List.length_append, List.length_cons]
    omega

/-- Settles O56: DLEN is 3 bytes for each response, and no response carries more. -/
theorem decodedTextFitsTheDlenCapacity : Obligations.DecodedTextFitsTheDlenCapacity := by
  intro t s
  have hcapacity : dlenResult t.length = (answers ((decGroups t).map encode) s).length * 3 := by
    rw [length_answers, List.length_map, length_decGroups, dlenResult_eq, Nat.mul_comm]
  have hcnt : ∀ r ∈ answers ((decGroups t).map encode) s, (rspCnt r).toNat ≤ 3 := by
    rw [answers_map_encode (leavesConfig_of_mem_decGroups t), List.forall_mem_map]
    exact rspCnt_le_of_mem_decGroups (readCfg s) t
  rw [hcapacity, decodeMessage]
  obtain ⟨hle, hfull⟩ := length_flatMap_decPayload (answers ((decGroups t).map encode) s)
  exact ⟨hle, hfull.trans (forall₂_congr fun r hr => length_decPayload_eq_three_iff (hcnt r hr))⟩

end Sys2Proof.Machine
end

section
/-! Decoding undoes encoding (42_decode.md R110, R111): the values of a group are windows of its 24
bits, the bytes of a chunk are windows of the 24 bits its values make, and these are the same
bits. -/

namespace Sys2Proof.Machine

/-! ## The values of a group of the source -/

theorem bjsSymbols_one (al : Alphabet) (a : Byte) :
    bjsSymbols al [a] = ((encValues (a ++ 0#8 ++ 0#8)).take 2).map (encLut al) :=
  (encDataSymbols_one al a).symm

theorem bjsSymbols_two (al : Alphabet) (a b : Byte) :
    bjsSymbols al [a, b] = ((encValues (a ++ b ++ 0#8)).take 3).map (encLut al) :=
  (encDataSymbols_two al a b).symm

theorem bjsSymbols_three (al : Alphabet) (a b c : Byte) :
    bjsSymbols al [a, b, c] = (encValues (a ++ b ++ c)).map (encLut al) :=
  (encDataSymbols_three al a b c).symm

/-- A group of one byte leaves its third and fourth values 0. -/
theorem low_windows_of_one (a : Byte) :
    (a ++ 0#8 ++ 0#8).extractLsb' 6 6 = 0#6 ∧ (a ++ 0#8 ++ 0#8).extractLsb' 0 6 = 0#6 := by
  simp only [extractLsb'_eq_iff, toNat_append_eq_add, BitVec.toNat_ofNat]
  omega

/-- A group of two bytes leaves its fourth value 0. -/
theorem low_window_of_two (a b : Byte) : (a ++ b ++ 0#8).extractLsb' 0 6 = 0#6 :=
  extractLsb'_append_low _ _ 0 6 (by norm_num)

/-! ## The bytes of a chunk -/

/-- The four values of a group make its 24 bits again. -/
theorem append_windows (g : BitVec 24) :
    g.extractLsb' 18 6 ++ g.extractLsb' 12 6 ++ g.extractLsb' 6 6 ++ g.extractLsb' 0 6 = g := by
  have := g.isLt
  apply BitVec.eq_of_toNat_eq
  rw [decGroup_toNat]
  simp only [toNat_extractLsb'_eq]
  omega

/-- Resolved values of a group of three bytes, an unresolved position standing for a value 0, give
its bytes back. -/
theorem bjsChunk_of_group (a b c : Byte) {r2 r3 : Option Sextet}
    (h2 : r2.getD 0#6 = (a ++ b ++ c).extractLsb' 6 6)
    (h3 : r3.getD 0#6 = (a ++ b ++ c).extractLsb' 0 6) :
    bjsChunk (some ((a ++ b ++ c).extractLsb' 18 6)) (some ((a ++ b ++ c).extractLsb' 12 6)) r2 r3 =
      [a] ++ (if r2.isSome then [b] else []) ++ (if r3.isSome then [c] else []) := by
  have hbytes : (a ++ b ++ c).extractLsb' 16 8 = a ∧ (a ++ b ++ c).extractLsb' 8 8 = b ∧
      (a ++ b ++ c).extractLsb' 0 8 = c := by
    have := a.isLt
    have := b.isLt
    have := c.isLt
    simp only [extractLsb'_eq_iff, toNat_append_eq_add]
    omega
  obtain ⟨ha, hb, hc⟩ := hbytes
  rw [bjsChunk, h2, h3, append_windows, ha, hb, hc]

/-! ## A text and what follows it -/

/-- A full group is decoded apart from what follows it. -/
theorem bjsDecode_four_append (al : Alphabet) (w x y z : Symbol) (rest : List Symbol) :
    bjsDecode al ([w, x, y, z] ++ rest) =
      bjsChunk (decLut al w) (decLut al x) (decLut al y) (decLut al z) ++ bjsDecode al rest := rfl

section
variable {al : Alphabet} {pad : List Symbol} (hpad : ∀ x ∈ pad, decLut al x = none)
include hpad

/-- Symbols outside the alphabet after a last group of three do not change its bytes. -/
theorem bjsDecode_three_append (w x y : Symbol) :
    bjsDecode al ([w, x, y] ++ pad) =
      bjsChunk (decLut al w) (decLut al x) (decLut al y) none := by
  cases pad with
  | nil => rfl
  | cons z rest =>
    obtain ⟨hz, hrest⟩ := List.forall_mem_cons.1 hpad
    refine (bjsDecode_four_append al w x y z rest).trans ?_
    rw [hz, bjsDecode_of_unresolved hrest, List.append_nil]

/-- Nor do they change the bytes of a last group of two. -/
theorem bjsDecode_two_append (w x : Symbol) :
    bjsDecode al ([w, x] ++ pad) = bjsChunk (decLut al w) (decLut al x) none none := by
  cases pad with
  | nil => rfl
  | cons y rest =>
    obtain ⟨hy, hrest⟩ := List.forall_mem_cons.1 hpad
    exact (bjsDecode_three_append hrest w x y).trans (by rw [hy])

/-- A message's data symbols, with anything outside the alphabet after them, decode to the
message. -/
theorem bjsDecode_bjsSymbols_append (m : List Byte) :
    bjsDecode al (bjsSymbols al m ++ pad) = m := by
  induction m using encGroups.induct with
  | case1 => exact bjsDecode_of_unresolved hpad
  | case2 a =>
    obtain ⟨hthird, hfourth⟩ := low_windows_of_one a
    rw [bjsSymbols_one]
    refine (bjsDecode_two_append hpad _ _).trans ?_
    rw [decLut_encLut, decLut_encLut]
    exact bjsChunk_of_group a 0#8 0#8 hthird.symm hfourth.symm
  | case3 a b =>
    rw [bjsSymbols_two]
    refine (bjsDecode_three_append hpad _ _ _).trans ?_
    rw [decLut_encLut, decLut_encLut, decLut_encLut]
    exact bjsChunk_of_group a b 0#8 rfl (low_window_of_two a b).symm
  | case4 a b c rest ih =>
    rw [bjsSymbols_cons, bjsSymbols_three, List.append_assoc]
    refine (bjsDecode_four_append al _ _ _ _ _).trans ?_
    rw [ih, decLut_encLut, decLut_encLut, decLut_encLut, decLut_encLut,
      bjsChunk_of_group a b c rfl rfl]
    rfl

end

/-- The text of a message decodes to the message in its own alphabet (R110). -/
theorem bjsDecode_encodeMessage (m : List Byte) {s : State}
    (hpadc : cfgPen (readCfg s) = true →
      decLut (cfgAlpha (readCfg s)) (cfgPadc (readCfg s)) = none) :
    bjsDecode (cfgAlpha (readCfg s)) (encodeMessage m s) = m := by
  rw [encodeMessage_eq_bjsEncode, bjsEncode_cfgPad]
  refine bjsDecode_bjsSymbols_append (fun x hx => ?_) m
  split at hx
  · rw [List.eq_of_mem_replicate hx]
    exact hpadc ‹_›
  · cases hx

/-- Settles O54: DEC decodes in the alphabet of the configuration, that of the text. -/
theorem decodingUndoesEncoding : Obligations.DecodingUndoesEncoding := by
  intro m s hpadc
  rw [decodeMessage_eq_bjsDecode, bjsDecode_encodeMessage m hpadc]

/-- Settles O55: both texts decode to the message. -/
theorem paddingIsCosmeticForDecoding : Obligations.PaddingIsCosmeticForDecoding := by
  intro m s s' u hs' hu _ hpen hpadc
  have hpadded := bjsDecode_encodeMessage m (s := s) fun _ => hpadc
  have hunpadded := bjsDecode_encodeMessage m (s := s') fun h => nomatch hpen.symm.trans h
  rw [decodeMessage_eq_bjsDecode, decodeMessage_eq_bjsDecode, ← hu, hpadded, hs', hunpadded]

end Sys2Proof.Machine
end
